-- ==== Sys2Proof/Word.lean ====
section
/-! DEFINITION. The word types of the block: operand, result, input word IN258 and output word OUT18
(00_scope.md R8, R9, R11, R12; 30_encoding.md R48, R49). Every value is unsigned. -/

namespace Sys2Proof

/-- The 256-bit unsigned operand `v` and working value `w` (R8, R27). Bit `i` has weight `2^i` (R11). -/
abbrev Operand := BitVec 256

/-- The 8-bit unsigned `msb`, `lzc` and accumulator `r` (R9, R27). -/
abbrev Result := BitVec 8

/-- One input sample written as a word, format IN258: bit 257 is `rst`, bit 256 `in_valid`, bits 255:0 `v` (R48). -/
abbrev InWord := BitVec 258

/-- The outputs of one cycle written as a word, format OUT18: bit 17 `out_valid`, bit 16 `err`, bits 15:8 `lzc`,
bits 7:0 `msb` (R49). -/
abbrev OutWord := BitVec 18

end Sys2Proof
end

