-- ==== Sys2Proof/Syntax.lean ====
section
/-! DEFINITION. The three operations of the block, one constructor for each row of spec/opcode_table.json
(30_encoding.md R51; 40_msb_operation.md R58, R70, R71). -/

namespace Sys2Proof

/-- An input sample as the operation it is decoded to (R47, R51). The fields that IDLE and RESET ignore are kept, because
the stimulus language lets a program write them (R56) and every word is then encoded by exactly one instruction
(DEDUCED, log 12). -/
inductive Instr where
  /-- RESET, `ctl = 10` or `11` (R71). `inValid = true` is the spelling RESET.V. Both fields are don't-cares. -/
  | reset (inValid : Bool) (v : Operand)
  /-- FMSB, `ctl = 01` (R58): a transaction with operand `v`. -/
  | fmsb (v : Operand)
  /-- IDLE, `ctl = 00` (R70): no transaction. `v` is a don't-care. -/
  | idle (v : Operand)
  deriving DecidableEq, Repr

/-- The operation is a RESET. -/
def Instr.isReset : Instr → Bool
  | .reset _ _ => true
  | .fmsb _ => false
  | .idle _ => false

end Sys2Proof
end

