-- ==== Sys2Proof/Decode.lean ====
section
/-! DEFINITION. Decoding an input word IN258, the opcode table as data, and the encoder (30_encoding.md R47 to R53). -/

namespace Sys2Proof

/-- The control field `ctl = {rst, in_valid} = word[257:256]` (R48). -/
def controlField (w : InWord) : BitVec 2 := w.extractLsb' 256 2

/-- The operand `v = word[255:0]` (R50). -/
def operandField (w : InWord) : Operand := w.extractLsb' 0 256

/-- Decoding is total: every one of the 2^258 words is exactly one operation (R51, R52). -/
def decode (w : InWord) : Instr :=
  if w.getLsbD 257 then .reset (w.getLsbD 256) (operandField w)
  else if w.getLsbD 256 then .fmsb (operandField w)
  else .idle (operandField w)

/-- Why a number is no input word. -/
inductive DecodeError where
  /-- Raised by `decodeNumber`: the number has a bit above 257, and an input sample has 258 bits (R48, R53). Safe: it refuses
  what no port can carry. -/
  | widerThanInWord
  deriving DecidableEq, Repr

/-- Decoding any number whose bits are numbered as IN258 numbers them; a number with a bit above 257 is rejected by name. -/
def decodeNumber (n : Nat) : Except DecodeError Instr :=
  if n >>> 258 = 0 then .ok (decode (BitVec.ofNat 258 n)) else .error .widerThanInWord

/-- The low `nbits` bits of a number. -/
def lowBits (nbits n : Nat) : Nat := n % 2 ^ nbits

/-- The instruction the decoder reads from a table word: the bits above `nbits` are 0 (log 11). -/
def decodeTableWord (nbits w : Nat) : Option Instr :=
  match decodeNumber (lowBits nbits w) with
  | .ok i => some i
  | .error _ => none

/-- The input word of an instruction: `{rst, in_valid, v[255:0]}` (R48, R51). -/
def encode : Instr → InWord
  | .reset inValid v => BitVec.ofBool true ++ BitVec.ofBool inValid ++ v
  | .fmsb v => BitVec.ofBool false ++ BitVec.ofBool true ++ v
  | .idle v => BitVec.ofBool false ++ BitVec.ofBool false ++ v

/-- One row of spec/opcode_table.json. -/
structure OpcodeRow where
  mnemonic : String
  matchBits : Nat
  maskBits : Nat
  deriving DecidableEq, Repr

/-- A word matches a row when it agrees with `matchBits` on every bit of `maskBits`. -/
def OpcodeRow.matchesWord (row : OpcodeRow) (w : InWord) : Bool :=
  w &&& BitVec.ofNat 258 row.maskBits == BitVec.ofNat 258 row.matchBits

/-- The opcode table (R51): RESET `mask = match = 2^257`; FMSB `mask = 3*2^256`, `match = 2^256`; IDLE the same mask, match 0. -/
def opcodeRows : List OpcodeRow :=
  [{ mnemonic := "RESET"
     matchBits := 0x20000000000000000000000000000000000000000000000000000000000000000
     maskBits := 0x20000000000000000000000000000000000000000000000000000000000000000 },
   { mnemonic := "FMSB"
     matchBits := 0x10000000000000000000000000000000000000000000000000000000000000000
     maskBits := 0x30000000000000000000000000000000000000000000000000000000000000000 },
   { mnemonic := "IDLE"
     matchBits := 0x0
     maskBits := 0x30000000000000000000000000000000000000000000000000000000000000000 }]

/-- The table's name of an instruction. -/
def Instr.mnemonic : Instr → String
  | .reset _ _ => "RESET"
  | .fmsb _ => "FMSB"
  | .idle _ => "IDLE"

end Sys2Proof
end

