-- ==== Sys2Proof/Config.lean ====
section
/-! DEFINITION. What is fixed when the block is built (LATENCY and STAGE_CUTS, 00_scope.md R10), and the free values:
what the spec writes `any` (R14; 93_implementation_defined.md I1 to I4, I7, I13). -/

namespace Sys2Proof

/-- The build-time parameters (R10, R17). `cuts` is STAGE_CUTS in ascending order, `c_1 < ... < c_L` (R29):
register `P[k]` sits after stage `c_k`. LATENCY is the number of its members, as R10 demands of a legal pair.
DESIGN CHOICE (log 2): the parameters are plain data in `State`, which no step changes. -/
structure Build where
  cuts : List Nat
  deriving DecidableEq, Repr

/-- LATENCY: STAGE_CUTS has exactly LATENCY members (R10). -/
def Build.latency (b : Build) : Nat := b.cuts.length

/-- The reference build: LATENCY = 8, STAGE_CUTS = {1, ..., 8} (R10, R29). -/
def Build.reference : Build := { cuts := [1, 2, 3, 4, 5, 6, 7, 8] }

/-! Free values (R14, R20: "A model draws these values freely in every such cycle"). None has a body, so nothing can be
proved of the value drawn. The first argument is the number of the draw, read from `State.tick`; a draw for a pipeline
register also takes the register's number k. DESIGN CHOICE (log 3). -/

/-- A free draw of `P[k].valid`: before the first reset edge only (R32, I4). -/
opaque Config.freeValid : Nat → Nat → Bool
/-- A free draw of `P[k].w` where the valid bit is 0, or before the first reset edge (R28, R31, R32, I3, I4). -/
opaque Config.freeW : Nat → Nat → Operand
/-- A free draw of `P[k].r` where the valid bit is 0, or before the first reset edge (R28, R31, R32, I3, I4). -/
opaque Config.freeR : Nat → Nat → Result
/-- A free draw of `P[k].z` where the valid bit is 0, or before the first reset edge (R28, R31, R32, I3, I4). -/
opaque Config.freeZ : Nat → Nat → Bool
/-- A free draw of `out_valid`: in the cycles up to the first reset edge only (R32, R115, I13). -/
opaque Config.freeOutValid : Nat → Bool
/-- A free draw of `err` where `out_valid = 0` (R20, I2). -/
opaque Config.freeErr : Nat → Bool
/-- A free draw of `msb` where `out_valid = 0` or `err = 1` (R20, I1, I2). -/
opaque Config.freeMsb : Nat → Result
/-- A free draw of `lzc` where `out_valid = 0` or `err = 1` (R20, R68, I1, I2, I7). -/
opaque Config.freeLzc : Nat → Result
/-- What the host drives in a cycle for which the state lists no line: any input word (R52, R111). DESIGN CHOICE (log 7). -/
opaque Config.freeInput : Nat → InWord

end Sys2Proof
end

