-- ==== Sys2Proof/WellFormed.lean ====
section
/-! DEFINITION. Which builds and which instructions are legal (00_scope.md R10; 30_encoding.md R52). -/

namespace Sys2Proof

/-- Every member lies above `low` and at most at 8, in strictly ascending order. -/
def ascendingTo8 : Nat → List Nat → Bool
  | _, [] => true
  | low, c :: cs => decide (low < c) && decide (c ≤ 8) && ascendingTo8 c cs

/-- A legal build (R10, R29): STAGE_CUTS is a subset of {1, ..., 8}, written in ascending order. LATENCY, its size, is then
0 to 8. -/
def Build.wellFormed (b : Build) : Bool := ascendingTo8 0 b.cuts

/-- The fields of an instruction lie in their legal ranges. No encoding is reserved or illegal, zero included (R52), and the
widths of the fields stand in their types, so each constructor's check, that its operand fits the port `v`, refuses no term.
The operand that does not fit is refused where it can be written, in the text of a program (R56; `AsmValue.operand`). -/
def Instr.wellFormed : Instr → Bool
  | .reset _ v => decide (v.toNat < 2 ^ 256)
  | .fmsb v => decide (v.toNat < 2 ^ 256)
  | .idle v => decide (v.toNat < 2 ^ 256)

end Sys2Proof
end

