-- ==== Sys2Proof/Machine/State.lean ====
section
/-! DEFINITION. The state of the block: pipeline registers, ports and build (10_state.md R16 to R32), the reasons a step can
stop, the state at power-up and the state right after reset. The block has no memory, program counter, register file, status
or control register (R21 to R26), so no field stands for one. -/

namespace Sys2Proof.Machine

/-- The machine has NO fault: no operation traps, and nothing can fail (R97, R102, R103, R119). The one exception of the
block, InvalidInput, is a result (`DomainError` below), not a stop. Nobody raises a `Fault`; that is safe. -/
inductive Fault where
  deriving DecidableEq, Repr

/-- Why a step can be refused. -/
inductive Refusal where
  /-- Reserved for an instruction of the table that has no meaning yet; raised by no arm of `exec`. Safe. -/
  | notModelled (mnemonic : String)
  /-- Raised by `step` when LATENCY = 0 and the host feeds an output back to an input in the same cycle: "this spec gives it
  no meaning: a model refuses it" (R121; I10, D12). Safe: the model stops where the spec gives no value. -/
  | combinationalLoop
  deriving DecidableEq, Repr

/-- The one error of the block (R96), part of the outcome of a transaction (R15). -/
inductive DomainError where
  /-- The operand was zero. -/
  | invalidInput
  deriving DecidableEq, Repr

/-- One pipeline register `P[k]` (R28). While `valid = 0` the other fields are `any`. -/
structure Reg where
  /-- 1 when the register holds an in-flight transaction. -/
  valid : Bool
  /-- The working value after the last stage before this register. -/
  w : Operand
  /-- The accumulator after that stage. -/
  r : Result
  /-- The transaction's zero flag. -/
  z : Bool
  deriving DecidableEq, Repr

/-- The values of the input ports at one rising edge, the input sample (R18, R47). -/
structure Sample where
  rst : Bool
  inValid : Bool
  v : Operand
  deriving DecidableEq, Repr

/-- The output ports during one cycle (R19). -/
structure OutPorts where
  valid : Bool
  err : Bool
  msb : Result
  lzc : Result
  deriving DecidableEq, Repr

/-- One wire by which the host feeds bit `fromOut` of the output word OUT18 back to bit `toIn` of the input word IN258 in the
same cycle (R121). DESIGN CHOICE (log 9). -/
structure FeedbackWire where
  fromOut : Fin 18
  toIn : Fin 258
  deriving DecidableEq, Repr

/-- What the host drives on the input ports in one cycle: a word IN258, and the bits of it that it takes from the outputs
instead (none, for a line of a stimulus program, R56). -/
structure HostLine where
  word : InWord
  feedback : List FeedbackWire
  deriving DecidableEq, Repr

/-- The state of the block at the start of a clock cycle. -/
structure State where
  /-- LATENCY and STAGE_CUTS (R10, R17): no step changes them (R31). -/
  build : Build
  /-- The pipeline registers, `P[1]` first (R28). -/
  regs : List Reg
  /-- The input ports: what the host drives in this cycle, then in the cycles after it (R18, R47; log 7). -/
  input : List HostLine
  /-- The output ports as the host captured them in the cycle that ended at the last edge (R19, R111; log 10). -/
  out : OutPorts
  /-- The model's own: a reset edge has happened since power-up (R32, R115; log 5). -/
  booted : Bool
  /-- The model's own: how many edges have passed, the number of the next free draw less one (log 3). -/
  tick : Nat
  deriving DecidableEq, Repr

/-- The list of registers fits the build, and the build is legal (R10, R28). -/
def State.wellFormed (s : State) : Bool := s.build.wellFormed && s.regs.length == s.build.latency

/-- The `any` content of a register `P[k]` with valid bit 0 (R28, R31; I3). -/
def Reg.bubble (draw k : Nat) : Reg :=
  { valid := false, w := Config.freeW draw k, r := Config.freeR draw k, z := Config.freeZ draw k }

/-- The `any` content of a register `P[k]` before the first reset edge, its valid bit included (R32; I4). -/
def Reg.unknown (draw k : Nat) : Reg :=
  { valid := Config.freeValid draw k, w := Config.freeW draw k, r := Config.freeR draw k, z := Config.freeZ draw k }

/-- `any` on every output port (R20, R32; I13). -/
def OutPorts.unknown (draw : Nat) : OutPorts :=
  { valid := Config.freeOutValid draw, err := Config.freeErr draw, msb := Config.freeMsb draw, lzc := Config.freeLzc draw }

/-- The state at power-up of a build: every field of every register is `any` (R32). -/
def State.powerUp (b : Build) : State :=
  { build := b
    regs := (List.range' 1 b.latency).map (Reg.unknown 0)
    input := []
    out := OutPorts.unknown 0
    booted := false
    tick := 0 }

/-- The reference build right after the first reset edge (R31): every valid bit is 0, and every data field is `any`. The
ports show the cycle that ended in that edge, in which every output is `any` (R115). -/
def State.reset : State :=
  { build := Build.reference
    regs := [Reg.bubble 1 1, Reg.bubble 1 2, Reg.bubble 1 3, Reg.bubble 1 4,
             Reg.bubble 1 5, Reg.bubble 1 6, Reg.bubble 1 7, Reg.bubble 1 8]
    input := []
    out := OutPorts.unknown 1
    booted := true
    tick := 1 }

end Sys2Proof.Machine
end

