-- ==== Sys2Proof/Machine/Flags.lean ====
section
/-! DEFINITION. The zero flag, the leading-zero view, the error code and how a result is read off the output ports
(30_encoding.md R54, R55; 40_msb_operation.md R68, R69; 41_halving_stages.md R76; 60_exceptions.md R96). -/

namespace Sys2Proof.Machine

/-- The zero detector `z = (v == 0)` (R76). It drives `err` (R92). -/
def zeroDetect (v : Operand) : Bool := v == 0#256

/-- The leading-zero count of a nonzero operand from its `msb`: `lzc = (~r)[7:0]` (R69, R93), which is `255 - r` (R68). -/
def lzcOf (r : Result) : Result := ~~~r

/-- The cause code of an error, the value of the port `err` (R96). -/
def DomainError.causeCode : DomainError → Nat
  | .invalidInput => 1

/-- The cause code of a transaction's outcome: 0 means no exception (R96). -/
def causeCode : Except DomainError Result → Nat
  | .ok _ => 0
  | .error e => e.causeCode

/-- Reading the output ports in one cycle (R54): no result, the value of `msb`, or InvalidInput. Where it answers InvalidInput
or no result it looks at neither `msb` nor `lzc` (R20). -/
def OutPorts.outcome (o : OutPorts) : Option (Except DomainError Result) :=
  if o.valid then some (if o.err then .error .invalidInput else .ok o.msb) else none

/-- The leading-zero count read in one cycle: only an error-free result has one (R54, R68). -/
def OutPorts.leadingZeros (o : OutPorts) : Option Result :=
  if o.valid && !o.err then some o.lzc else none

end Sys2Proof.Machine
end

