-- ==== Sys2Proof/Machine/Operands.lean ====
section
/-! DEFINITION. The one operand form and the port words: the input sample of an instruction, the output word, and the host's
feedback wires (30_encoding.md R47 to R50; 70_reset_and_hazards.md R121). -/

namespace Sys2Proof.Machine

/-- The port values of an input word (R48). -/
def Sample.ofWord (w : InWord) : Sample :=
  { rst := w.getLsbD 257, inValid := w.getLsbD 256, v := operandField w }

/-- The input sample of an FMSB: `rst = 0`, `in_valid = 1` (R58). -/
def fmsbSample (v : Operand) : Sample := { rst := false, inValid := true, v := v }

/-- The input sample of an IDLE: `rst = 0`, `in_valid = 0` (R70). -/
def idleSample (v : Operand) : Sample := { rst := false, inValid := false, v := v }

/-- The input sample of a RESET: `rst = 1` (R71). -/
def resetSample (inValid : Bool) (v : Operand) : Sample := { rst := true, inValid := inValid, v := v }

/-- The output word `{out_valid, err, lzc, msb}` (R49). -/
def OutPorts.toWord (o : OutPorts) : OutWord :=
  BitVec.ofBool o.valid ++ BitVec.ofBool o.err ++ o.lzc ++ o.msb

/-- The output ports of an output word (R49). -/
def OutPorts.ofWord (w : OutWord) : OutPorts :=
  { valid := w.getLsbD 17, err := w.getLsbD 16, lzc := w.extractLsb' 8 8, msb := w.extractLsb' 0 8 }

/-- Bit `i` of a word set to `b`. -/
def setBit (w : InWord) (i : Nat) (b : Bool) : InWord :=
  (w &&& ~~~(1#258 <<< i)) ||| ((BitVec.ofBool b).setWidth 258 <<< i)

/-- The word the host drives once its feedback wires carry the outputs `o`: a later wire of the list wins. -/
def HostLine.drivenWord (d : HostLine) (o : OutWord) : InWord :=
  d.feedback.foldl (fun w x => setBit w x.toIn (o.getLsbD x.fromOut)) d.word

end Sys2Proof.Machine
end

