-- ==== Sys2Proof/Machine/Ops.lean ====
section
/-! DEFINITION. The shared operations of the block: the stage function, the cascade, the contract of FMSB, the outputs of a
cycle, what a clock edge does to the registers, and how the next input sample is taken
(40_msb_operation.md R58; 41_halving_stages.md R76 to R95; 10_state.md R29 to R32). -/

namespace Sys2Proof.Machine

/-! ## The halving stages -/

/-- The values `w` and `r` that a transaction carries through the cascade (R27). -/
structure Work where
  w : Operand
  r : Result
  deriving DecidableEq, Repr

/-- The values entering stage 1: the working copy of `v`, and the accumulator at 0 (R27, R78). -/
def Work.start (v : Operand) : Work := { w := v, r := 0#8 }

/-- The decision bit `d_s = (w >> s != 0)` (R77). -/
def stageTaken (s : Nat) (w : Operand) : Bool := w >>> s != 0#256

/-- The stage function `STEP_s` without its decision bit (R77): a select between `(w >> s, r + s)` and `(w, r)`. -/
def stage (s : Nat) (x : Work) : Work :=
  if stageTaken s x.w then { w := x.w >>> s, r := x.r + BitVec.ofNat 8 s } else x

/-- The step of stage `j`, `s = 2^(8-j)`: 128, 64, 32, 16, 8, 4, 2, 1 for `j = 1..8` (R8, R78 to R85). -/
def stepSize (j : Nat) : Nat := 2 ^ (8 - j)

/-- `STAGES(a, b)`: the stages `a, a+1, ..., b` in that order; the identity when `a > b` (R86). -/
def stages (a b : Nat) (x : Work) : Work :=
  (List.range' a (b + 1 - a)).foldl (fun y j => stage (stepSize j) y) x

/-- `CASCADE(v)`: all eight stages from `(v, 0)` (R86). -/
def cascade (v : Operand) : Work := stages 1 8 (Work.start v)

/-- The contract `FMSB(v)`, the pseudocode of R58: the steps from the largest to the smallest (R67), then the domain error or
the accumulator. -/
def findMsb (v : Operand) : Except DomainError Result :=
  let done := [128, 64, 32, 16, 8, 4, 2, 1].foldl (fun y s => stage s y) (Work.start v)
  if zeroDetect v then .error .invalidInput else .ok done.r

/-! ## The outputs of a cycle -/

/-- Output assembly from the final values of what stands in the last register (R92, R93), with `any` where R20 says so. This is
also the block's whole reaction to InvalidInput: `err = 1` in the result slot and nothing else (R98, R102). -/
def assembleOutputs (draw : Nat) (valid z : Bool) (r : Result) : OutPorts :=
  { valid := valid
    err := if valid then z else Config.freeErr draw
    msb := if valid && !z then r else Config.freeMsb draw
    lzc := if valid && !z then lzcOf r else Config.freeLzc draw }

/-- The number of the free draws that the present cycle and the edge ending it use (log 3). -/
def State.draw (s : State) : Nat := s.tick + 1

/-- The outputs during a cycle when LATENCY >= 1, combinational from `P[L]` through the output group, stages `c_L + 1` to 8
(R29, R93). Before the first reset edge every output is `any` (R32, R115; log 5). A state with no register, which LATENCY >= 1
rules out, drives `any` as well (log 15). -/
def registeredOutputs (s : State) : OutPorts :=
  if s.booted then
    match s.build.cuts.getLast?, s.regs.getLast? with
    | some c, some p => assembleOutputs s.draw p.valid p.z (stages (c + 1) 8 { w := p.w, r := p.r }).r
    | _, _ => OutPorts.unknown s.draw
  else OutPorts.unknown s.draw

/-- The outputs during a cycle when LATENCY = 0, a function of that cycle's inputs (R94). -/
def combinationalOutputs (draw : Nat) (i : Sample) : OutPorts :=
  assembleOutputs draw (i.inValid && !i.rst) (zeroDetect i.v) (stages 1 8 (Work.start i.v)).r

/-- The outputs during a cycle in which the input ports carry `i`. -/
def outputs (s : State) (i : Sample) : OutPorts :=
  if s.build.latency = 0 then combinationalOutputs s.draw i else registeredOutputs s

/-! ## What a clock edge does to the pipeline registers -/

/-- What enters the first group of stages: the sample, with the zero flag of its operand (R29, R93). -/
def entering (i : Sample) : Reg := { valid := i.inValid, w := i.v, r := 0#8, z := zeroDetect i.v }

/-- What the register `P[k]` holds once `p` has come through the stages `first` to `last` before it: where the valid bit
written is 0, the data fields written are `any` (R93). -/
def loaded (draw k first last : Nat) (p : Reg) : Reg :=
  if p.valid then
    let x := stages first last { w := p.w, r := p.r }
    { valid := true, w := x.w, r := x.r, z := p.z }
  else Reg.bubble draw k

/-- The transfer of R93 from register `P[k]` on: `src` is what stands before it, after stage `cut`. Every right-hand side is a
value held before the edge. -/
def shiftFrom (draw : Nat) : Nat → Nat → Reg → List Nat → List Reg → List Reg
  | k, cut, src, c :: cs, p :: ps => loaded draw k (cut + 1) c src :: shiftFrom draw (k + 1) c p cs ps
  | _, _, _, _, _ => []

/-- An edge with `rst = 0` (R93). Before the first reset edge every register is `any` instead (R32, I4; log 5). -/
def clockEdge (i : Sample) (s : State) : State :=
  { s with
    regs := if s.booted then shiftFrom s.draw 1 0 (entering i) s.build.cuts s.regs
            else (List.range' 1 s.build.latency).map (Reg.unknown s.draw)
    out := outputs s i
    tick := s.tick + 1 }

/-- An edge with `rst = 1` (R71, R93, R112): every valid bit becomes 0, the data fields are `any`, and the sample is not
accepted. -/
def resetEdge (i : Sample) (s : State) : State :=
  { s with
    regs := (List.range' 1 s.build.latency).map (Reg.bubble s.draw)
    out := outputs s i
    booted := true
    tick := s.tick + 1 }

/-- The number of in-flight transactions (R30). -/
def State.inFlight (s : State) : Nat := s.regs.countP (fun p => p.valid)

/-! ## Taking the next input sample -/

/-- What the host drives in the present cycle: the first listed line, or any word where none is listed (log 7). -/
def State.hostLine (s : State) : HostLine :=
  match s.input with
  | [] => { word := Config.freeInput s.draw, feedback := [] }
  | d :: _ => d

/-- The host moves on to the next cycle. -/
def State.nextCycle (s : State) : State := { s with input := s.input.tail }

/-- The word on the input ports in the present cycle. With feedback wires it needs the outputs of the same cycle: when
LATENCY >= 1 these come from registers; when LATENCY = 0 that is a combinational loop, which is refused (R121). -/
def presentedWord (s : State) : Except Refusal InWord :=
  let d := s.hostLine
  if d.feedback.isEmpty then .ok d.word
  else if s.build.latency = 0 then .error .combinationalLoop
  else .ok (d.drivenWord (registeredOutputs s).toWord)

end Sys2Proof.Machine
end

