-- ==== Sys2Proof/Machine/Control.lean ====
section
/-! DEFINITION. The meanings of IDLE and RESET (40_msb_operation.md R70, R71). -/

namespace Sys2Proof.Machine

/-- IDLE (R70): `P[1].valid <- 0`, every other register advances, and transactions in flight go on. `v` has no effect. -/
def execIdle (v : Operand) (s : State) : Host.Outcome State Fault Refusal :=
  .next (clockEdge (idleSample v) s)

/-- RESET (R71): every in-flight transaction is discarded and none is accepted, whatever `in_valid` and `v` are. -/
def execReset (inValid : Bool) (v : Operand) (s : State) : Host.Outcome State Fault Refusal :=
  .next (resetEdge (resetSample inValid v) s)

end Sys2Proof.Machine
end

