-- ==== Sys2Proof/Machine/Fmsb.lean ====
section
/-! DEFINITION. The meaning of FMSB (40_msb_operation.md R58). -/

namespace Sys2Proof.Machine

/-- FMSB `v` (R58): the transaction enters the pipeline at this edge (R93), or, when LATENCY = 0, its result is on the outputs
of this very cycle (R94). Zero is accepted like any operand, and ends in InvalidInput in its own result slot (R52, R98). -/
def execFmsb (v : Operand) (s : State) : Host.Outcome State Fault Refusal :=
  .next (clockEdge (fmsbSample v) s)

end Sys2Proof.Machine
end

