-- ==== Sys2Proof/Machine/Dispatch.lean ====
section
/-! DEFINITION. One arm for each operation: its meaning. -/

namespace Sys2Proof.Machine

def exec (i : Instr) (s : State) : Host.Outcome State Fault Refusal :=
  match i with
  | .reset inValid v => Sys2Proof.Machine.execReset inValid v s
  | .fmsb v => Sys2Proof.Machine.execFmsb v s
  | .idle v => Sys2Proof.Machine.execIdle v s

end Sys2Proof.Machine
end

