-- ==== Sys2Proof/Machine/Step.lean ====
section
/-! DEFINITION. One step: one clock cycle and the rising edge that ends it (10_state.md R18; 30_encoding.md R47). -/

namespace Sys2Proof.Machine

/-- The word on the input ports is decoded, and its operation runs; the host then moves on to its next line. Every edge has
exactly one input sample (R47). -/
def step (s : State) : Host.Outcome State Fault Refusal :=
  match presentedWord s with
  | .ok w => exec (decode w) s.nextCycle
  | .error r => .refused r

/-- `s` with the table word `w` on the input ports in the present cycle, the bits above `nbits` zero, and no feedback wire
(log 8). The lines after it stay. -/
def State.withFetchWord (s : State) (nbits w : Nat) : State :=
  { s with input := { word := BitVec.ofNat 258 (lowBits nbits w), feedback := [] } :: s.input.tail }

end Sys2Proof.Machine
end

