-- ==== Sys2Proof/Machine/Assembler.lean ====
section
/-! DEFINITION. The stimulus language: one line for each clock cycle, its values, its pseudo-instructions, and the reading of
its text (30_encoding.md R56, R57). -/

namespace Sys2Proof.Machine

/-- A `<value>` (R56): decimal or hexadecimal, `2^k`, `2^k-1` or `2^k+m`. -/
inductive AsmValue where
  | number (n : Nat)
  | power (k : Nat)
  | powerLessOne (k : Nat)
  | powerPlus (k m : Nat)
  deriving DecidableEq, Repr

/-- A line of a stimulus program: the four operation lines (R56) and the three pseudo-instructions (R57). -/
inductive AsmLine where
  | fmsb (v : AsmValue)
  | idle (v : Option AsmValue)
  | reset (v : Option AsmValue)
  | resetV (v : Option AsmValue)
  | wait (n : Nat)
  | drain
  | init
  deriving DecidableEq, Repr

/-- Why the assembler refuses a line. -/
inductive AsmError where
  /-- A value of `2^256` or more is not a legal operand (R56). -/
  | valueTooWide
  /-- The text is no line of R56 or R57. -/
  | unreadable
  deriving DecidableEq, Repr

/-- A value, evaluated exactly (R56). -/
def AsmValue.eval : AsmValue → Nat
  | .number n => n
  | .power k => 2 ^ k
  | .powerLessOne k => 2 ^ k - 1
  | .powerPlus k m => 2 ^ k + m

/-- A value as an operand; one that does not fit in 256 bits is refused (R56). -/
def AsmValue.operand (x : AsmValue) : Except AsmError Operand :=
  if x.eval < 2 ^ 256 then .ok (BitVec.ofNat 256 x.eval) else .error .valueTooWide

/-- An optional value: 0 by default (R56). For RESET.V the default is DEDUCED (log 13). -/
def optionalOperand : Option AsmValue → Except AsmError Operand
  | none => .ok 0#256
  | some x => x.operand

/-- The samples of one line (R56, R57), one for each clock cycle; DRAIN depends on LATENCY. -/
def AsmLine.expand (latency : Nat) : AsmLine → Except AsmError (List Instr)
  | .fmsb x => x.operand.map (fun v => [.fmsb v])
  | .idle x => (optionalOperand x).map (fun v => [.idle v])
  | .reset x => (optionalOperand x).map (fun v => [.reset false v])
  | .resetV x => (optionalOperand x).map (fun v => [.reset true v])
  | .wait n => .ok (List.replicate n (.idle 0#256))
  | .drain => .ok (List.replicate latency (.idle 0#256))
  | .init => .ok [.reset false 0#256]

/-- The samples of a whole program, in the order of its lines. -/
def assemble (latency : Nat) : List AsmLine → Except AsmError (List Instr)
  | [] => .ok []
  | l :: ls =>
    match l.expand latency, assemble latency ls with
    | .ok is, .ok js => .ok (is ++ js)
    | .error e, _ => .error e
    | .ok _, .error e => .error e

/-- A program put on the input ports: its words one after another, with no feedback wire. -/
def hostLines (is : List Instr) : List HostLine := is.map (fun i => { word := encode i, feedback := [] })

/-! ## Reading the text of a line (layout details: DESIGN CHOICE, log 13) -/

/-- The value of a decimal digit. -/
def decimalDigit (c : Char) : Option Nat :=
  if '0' ≤ c ∧ c ≤ '9' then some (c.toNat - 48) else none

/-- The value of a hexadecimal digit, of either case. -/
def hexDigit (c : Char) : Option Nat :=
  if '0' ≤ c ∧ c ≤ '9' then some (c.toNat - 48)
  else if 'A' ≤ c ∧ c ≤ 'F' then some (c.toNat - 55)
  else if 'a' ≤ c ∧ c ≤ 'f' then some (c.toNat - 87)
  else none

/-- Digits read most significant first (R11), on top of what has been read. -/
def readDigits (base : Nat) (digit : Char → Option Nat) : Nat → List Char → Option Nat
  | acc, [] => some acc
  | acc, c :: cs =>
    match digit c with
    | some d => readDigits base digit (acc * base + d) cs
    | none => none

/-- A decimal number: at least one digit. -/
def readDecimal : List Char → Option Nat
  | [] => none
  | cs => readDigits 10 decimalDigit 0 cs

/-- The digits of a hex literal after `0x`: at least one. -/
def readHex : List Char → Option Nat
  | [] => none
  | cs => readDigits 16 hexDigit 0 cs

/-- What follows `2^`: `k`, `k-1` or `k+m` (R56). -/
def readPower (cs : List Char) : Option AsmValue :=
  let ks := cs.takeWhile (fun c => c != '-' && c != '+')
  let rest := cs.dropWhile (fun c => c != '-' && c != '+')
  match readDecimal ks, rest with
  | some k, [] => some (.power k)
  | some k, ['-', '1'] => some (.powerLessOne k)
  | some k, '+' :: ms => (readDecimal ms).map (.powerPlus k)
  | _, _ => none

/-- A `<value>` (R56). -/
def readValue : List Char → Option AsmValue
  | '0' :: 'x' :: cs => (readHex cs).map .number
  | '2' :: '^' :: cs => readPower cs
  | cs => (readDecimal cs).map .number

/-- The words of a line: what stands before `;` (the rest is a comment, R56), cut at spaces and tabs. -/
def lineWords (cs : List Char) : List (List Char) :=
  let code := cs.takeWhile (fun c => c != ';')
  let step := fun (c : Char) (acc : List Char × List (List Char)) =>
    if c = ' ' ∨ c = '\t' then (([] : List Char), if acc.1.isEmpty then acc.2 else acc.1 :: acc.2)
    else (c :: acc.1, acc.2)
  let done := code.foldr step ([], [])
  if done.1.isEmpty then done.2 else done.1 :: done.2

/-- One line of text: no line where it is blank or only a comment, else a line of R56 or R57, or a refusal. The count `<n>` of
WAIT is read as decimal digits only, and a hex or `2^k` count is refused: R57 gives the count no form, and R56 gives number forms
for `<value>` alone (DESIGN CHOICE, log 13). -/
def readLine (cs : List Char) : Except AsmError (Option AsmLine) :=
  let answer (l : Option AsmLine) : Except AsmError (Option AsmLine) :=
    match l with
    | some x => .ok (some x)
    | none => .error .unreadable
  match lineWords cs with
  | [] => .ok none
  | [name] =>
    if name = ['I', 'D', 'L', 'E'] then .ok (some (.idle none))
    else if name = ['R', 'E', 'S', 'E', 'T'] then .ok (some (.reset none))
    else if name = ['R', 'E', 'S', 'E', 'T', '.', 'V'] then .ok (some (.resetV none))
    else if name = ['D', 'R', 'A', 'I', 'N'] then .ok (some .drain)
    else if name = ['I', 'N', 'I', 'T'] then .ok (some .init)
    else .error .unreadable
  | [name, value] =>
    if name = ['F', 'M', 'S', 'B'] then answer ((readValue value).map .fmsb)
    else if name = ['I', 'D', 'L', 'E'] then answer ((readValue value).map (fun x => .idle (some x)))
    else if name = ['R', 'E', 'S', 'E', 'T'] then answer ((readValue value).map (fun x => .reset (some x)))
    else if name = ['R', 'E', 'S', 'E', 'T', '.', 'V'] then answer ((readValue value).map (fun x => .resetV (some x)))
    else if name = ['W', 'A', 'I', 'T'] then answer ((readDecimal value).map .wait)
    else .error .unreadable
  | _ => .error .unreadable

end Sys2Proof.Machine
end

