-- ==== Sys2Proof/Machine/Realisations.lean ====
section
/-! DEFINITION. The other forms in which a builder may realise the datapath (92_eei_decisions.md D21, D23): the block's own
definitions are in Ops and Flags; these are stated equal to them. And the ascending order of the steps, which is NOT this block
(40_msb_operation.md R67). -/

namespace Sys2Proof.Machine

/-- The zero detector read from the final working value: `z = NOT w_final[0]` (R76, R91). -/
def zeroDetectFromCascade (v : Operand) : Bool := !(cascade v).w.getLsbD 0

/-- The decision bit from the window: `w[2s-1:s] != 0` (R88). -/
def takenByWindow (s : Nat) (w : Operand) : Bool := w.extractLsb' s s != 0#s

/-- The decision bit as a magnitude comparison against `2^s` (R88). -/
def takenByCompare (s : Nat) (w : Operand) : Bool := decide (2 ^ s ≤ w.toNat)

/-- The narrow stage: window test, window select and `r | s` (R88, R89). -/
def windowStage (s : Nat) (x : Work) : Work :=
  if takenByWindow s x.w then { w := (x.w.extractLsb' s s).setWidth 256, r := x.r ||| BitVec.ofNat 8 s } else x

/-- The cascade built of narrow stages. -/
def windowCascade (v : Operand) : Work :=
  [128, 64, 32, 16, 8, 4, 2, 1].foldl (fun y s => windowStage s y) (Work.start v)

/-- The leading-zero count by subtraction, `255 - r` (R68). -/
def lzcBySubtraction (r : Result) : Result := 255#8 - r

/-- The same stage rule with the steps in ascending order: "An implementation that applies them in another order is not this
block" (R67). -/
def ascendingCascade (v : Operand) : Work :=
  [1, 2, 4, 8, 16, 32, 64, 128].foldl (fun y s => stage s y) (Work.start v)

end Sys2Proof.Machine
end

