-- ==== Sys2Proof/Safety.lean ====
section
/-! DEFINITION. What a sound state is, and runs of several operations: the words in which the statements speak. -/

namespace Sys2Proof.Machine

/-- The index of the highest set bit, `msb(v)` (00_scope.md, glossary; R59): the floor of the base-2 logarithm. -/
def msbIndex (v : Operand) : Nat := Nat.log2 v.toNat

/-- The register holds what a transaction with operand `v` has become after the stages 1 to `c` (R28, R86), with its own zero
flag (R76). -/
def Reg.carries (p : Reg) (c : Nat) (v : Operand) : Prop :=
  (⟨p.w, p.r⟩ : Work) = stages 1 c (Work.start v) ∧ p.z = zeroDetect v

/-- A sound state: the registers fit a legal build (R10, R28), and once a reset edge has happened each valid register holds a
genuine partial computation of some operand (R28, R93). -/
def State.Sound (s : State) : Prop :=
  s.wellFormed = true ∧
  (s.booted = true → ∀ (k c : Nat) (p : Reg), s.build.cuts[k]? = some c → s.regs[k]? = some p →
    p.valid = true → ∃ v, p.carries c v)

/-- The outputs of the block carry meaning: a reset edge has happened, or there is no register (R32, R115). -/
def State.Meaningful (s : State) : Prop := s.booted = true ∨ s.build.latency = 0

/-- No register holds an in-flight transaction (R30): every valid bit is 0, as a reset edge leaves it (R31). -/
def State.Empty (s : State) : Prop := ∀ p ∈ s.regs, p.valid = false

/-- The registers `P[2]` to `P[L]` of `t` hold what stood in `P[1]` to `P[L-1]` of `s`, taken through the stages between
(R93): the valid bit always, the data where it is 1. -/
def State.AdvancedTo (s t : State) : Prop :=
  t.regs.length = s.build.latency ∧
  ∀ (k c c' : Nat) (p : Reg), s.build.cuts[k]? = some c → s.build.cuts[k + 1]? = some c' → s.regs[k]? = some p →
    ∃ q, t.regs[k + 1]? = some q ∧ q.valid = p.valid ∧
      (p.valid = true → q.z = p.z ∧ (⟨q.w, q.r⟩ : Work) = stages (c + 1) c' ⟨p.w, p.r⟩)

/-- What operations leave alone: the build, the host's lines and whether a reset edge has happened. -/
def State.SameSetting (s t : State) : Prop := t.build = s.build ∧ t.input = s.input ∧ t.booted = s.booted

/-- The output ports `o` show the last register `P[L]` of `s` through the output group (R92, R93): `err` where there is a
result, `msb` and `lzc` where it is error-free. -/
def State.ShownOn (s : State) (o : OutPorts) : Prop :=
  ∀ (c : Nat) (p : Reg), s.build.cuts.getLast? = some c → s.regs.getLast? = some p →
    o.valid = p.valid ∧
    (p.valid = true → o.err = p.z) ∧
    (p.valid = true → p.z = false →
      o.msb = (stages (c + 1) 8 ⟨p.w, p.r⟩).r ∧ o.lzc.toNat = 255 - (stages (c + 1) 8 ⟨p.w, p.r⟩).r.toNat)

/-- Two registers agree where the spec gives them a value: the valid bit, and the data while it is 1; the data of an invalid
register is `any` (R28). -/
def Reg.Agrees (p q : Reg) : Prop := p.valid = q.valid ∧ (p.valid = true → p = q)

/-- As many registers on both sides, and they agree one by one. -/
def RegsAgree (ps qs : List Reg) : Prop :=
  ps.length = qs.length ∧ ∀ (k : Nat) (p q : Reg), ps[k]? = some p → qs[k]? = some q → p.Agrees q

/-- The ports of two cycles agree where the spec gives them a value (R20): they read as the same outcome and the same
leading-zero count (R54). -/
def OutPorts.Agrees (o o' : OutPorts) : Prop := o.outcome = o'.outcome ∧ o.leadingZeros = o'.leadingZeros

/-- Two states agree where the spec gives them a value: the build, the host's lines, whether a reset edge has happened, the
number of registers and, once one has, the registers (R28, R31, R32). The ports are those of a cycle that is over, and the
number of the next draw (log 3) is no part of the block: neither is compared. -/
def State.Agrees (s t : State) : Prop :=
  t.build = s.build ∧ t.input = s.input ∧ t.booted = s.booted ∧ s.regs.length = t.regs.length ∧
  (s.booted = true → RegsAgree s.regs t.regs)

/-- The outcome that a transaction accepted as operation `i` has in its result cycle, when the operations `between` came at
the edges after its own and before its result was driven: none for an operation that is no transaction, none for a discarded
one (R113), else the contract's (R58, R116). -/
def resultOf (i : Instr) (between : List Instr) : Option (Except DomainError Result) :=
  match i with
  | .fmsb v => if between.any Instr.isReset then none else some (findMsb v)
  | .idle _ => none
  | .reset _ _ => none

/-- The leading-zero count that goes with an outcome (R68): `255 - r` with a numeric result, none with an error or no result. -/
def leadingZerosOf : Option (Except DomainError Result) → Option Result
  | some (.ok r) => some (255#8 - r)
  | some (.error _) => none
  | none => none

/-- The state after the operations of a list, one for each clock cycle; none if one of them stops. -/
def runAll : List Instr → State → Option State
  | [], s => some s
  | i :: is, s =>
    match exec i s with
    | .next t => runAll is t
    | .fault _ => none
    | .refused _ => none

/-- The output ports in each cycle of a run, oldest first; a run that stops ends the list. -/
def outputTrace : List Instr → State → List OutPorts
  | [], _ => []
  | i :: is, s =>
    match exec i s with
    | .next t => t.out :: outputTrace is t
    | .fault _ => []
    | .refused _ => []

/-- The outcome read off the output ports in each cycle of a run (R54). -/
def readings (is : List Instr) (s : State) : List (Option (Except DomainError Result)) :=
  (outputTrace is s).map OutPorts.outcome

/-- The leading-zero count read off the output ports in each cycle of a run (R54, R68). -/
def countReadings (is : List Instr) (s : State) : List (Option Result) :=
  (outputTrace is s).map OutPorts.leadingZeros

/-- The state after `k` steps from `s`: `Host.Core.run` of the machine, with its stops left out. -/
def stepMany (k : Nat) (s : State) : Option State :=
  match Sys2Proof.core.run k s with
  | .next t => some t
  | .fault _ => none
  | .refused _ => none

end Sys2Proof.Machine
end

