-- ==== Sys2Proof/Certificates/Slice0/Obligations.lean ====
section
/-! DEFINITION. The statements about the model, each from rules of spec/. -/

open Sys2Proof
open Sys2Proof.Machine

/-! ## The halving stages and the cascade (41_halving_stages.md) -/

/-- R77 (with the shift of R13): the decision bit is `t != 0` for `t = floor(w / 2^s)`; a taken stage gives `(t, r + s)`, the sum
exact where it fits in 8 bits, as it always does (R90); any other stage leaves both unchanged. -/
def Obligations.StageShiftsAndAddsOnlyWhenTaken : Prop :=
  ∀ (s : Nat) (x : Work), s ≤ 255 →
    (stageTaken s x.w = true ↔ x.w.toNat / 2 ^ s ≠ 0) ∧
    (stageTaken s x.w = true → (stage s x).w.toNat = x.w.toNat / 2 ^ s ∧
      (x.r.toNat + s ≤ 255 → (stage s x).r.toNat = x.r.toNat + s)) ∧
    (stageTaken s x.w = false → stage s x = x)

/-- R86: the cascade is `STAGES(1, 8)` from `(v, 0)`; `STAGES(a, b)` applies stage `a` first, is the identity when `a > b`, and
`STAGES(a, c) = STAGES(b+1, c) ∘ STAGES(a, b)`. -/
def Obligations.StagesSplitBetweenRegisters : Prop :=
  (∀ v : Operand, cascade v = stages 1 8 ⟨v, 0#8⟩) ∧
  (∀ (a b : Nat) (x : Work), b < a → stages a b x = x) ∧
  (∀ (a b : Nat) (x : Work), a ≤ b → stages a b x = stages (a + 1) b (stage (2 ^ (8 - a)) x)) ∧
  (∀ (a b c : Nat) (x : Work), 1 ≤ a → a ≤ b → b < c → c ≤ 8 → stages a c x = stages (b + 1) c (stages a b x))

/-- R87: for the values entering stage `j`, whose step is `s`: (a) `w < 2^(2s)`; (b) `r` is a multiple of `2s`; (c) for a nonzero
operand `w` is nonzero and `r + msb(w) = msb(v)`. On leaving stage 8, `w < 2`, and for a nonzero operand `w = 1` and
`r = msb(v)`. -/
def Obligations.CascadeInvariant : Prop :=
  ∀ v : Operand,
    (∀ j, 1 ≤ j → j ≤ 8 →
      (stages 1 (j - 1) (Work.start v)).w.toNat < 2 ^ (2 * 2 ^ (8 - j)) ∧
      2 * 2 ^ (8 - j) ∣ (stages 1 (j - 1) (Work.start v)).r.toNat ∧
      (v ≠ 0#256 → (stages 1 (j - 1) (Work.start v)).w ≠ 0#256 ∧
        (stages 1 (j - 1) (Work.start v)).r.toNat + msbIndex (stages 1 (j - 1) (Work.start v)).w = msbIndex v)) ∧
    (cascade v).w.toNat < 2 ∧
    (v ≠ 0#256 → (cascade v).w = 1#256 ∧ (cascade v).r.toNat = msbIndex v)

/-- R88: under `w < 2^(2s)` the test `w >> s != 0` is the window test `w[2s-1:s] != 0`, a nonzero shift is the window widened with
zeros, and the narrow stage gives the same values; for every `w` the test is the comparison `w >= 2^s`; no stage shifts by more
than 128. -/
def Obligations.WindowFormAgreesWithFullShift : Prop :=
  (∀ j, 1 ≤ j → j ≤ 8 → ∀ x : Work, x.w.toNat < 2 ^ (2 * stepSize j) → 2 * stepSize j ∣ x.r.toNat →
    (x.w >>> stepSize j ≠ 0#256 ↔ x.w.extractLsb' (stepSize j) (stepSize j) ≠ 0#(stepSize j)) ∧
    x.w >>> stepSize j = (x.w.extractLsb' (stepSize j) (stepSize j)).setWidth 256 ∧
    takenByWindow (stepSize j) x.w = stageTaken (stepSize j) x.w ∧
    windowStage (stepSize j) x = stage (stepSize j) x) ∧
  (∀ (s : Nat) (w : Operand), takenByCompare s w = stageTaken s w) ∧
  (∀ j, 1 ≤ j → j ≤ 8 → stepSize j ≤ 128)

/-- R89: the final accumulator is the sum of `d_s * s`; its bit `log2(s) = 8 - j` is the decision bit of stage `j`; when stage `j`
starts that bit of `r` is 0, so the add sets one bit: `r + s = r | s`. -/
def Obligations.ResultBitsAreDecisionBits : Prop :=
  ∀ v : Operand,
    (cascade v).r.toNat =
      ((List.range' 1 8).map (fun j =>
        (stageTaken (stepSize j) (stages 1 (j - 1) (Work.start v)).w).toNat * stepSize j)).sum ∧
    ∀ j, 1 ≤ j → j ≤ 8 →
      (cascade v).r.getLsbD (8 - j) = stageTaken (stepSize j) (stages 1 (j - 1) (Work.start v)).w ∧
      (stages 1 (j - 1) (Work.start v)).r.getLsbD (8 - j) = false ∧
      (stages 1 (j - 1) (Work.start v)).r + BitVec.ofNat 8 (stepSize j) =
        (stages 1 (j - 1) (Work.start v)).r ||| BitVec.ofNat 8 (stepSize j)

/-- R90: at every stage the exact sum `r + s` is at most 255, and so is the final accumulator, the sum of all steps at most. -/
def Obligations.AccumulatorNeverOverflows : Prop :=
  ∀ v : Operand,
    (∀ j, 1 ≤ j → j ≤ 8 → (stages 1 (j - 1) (Work.start v)).r.toNat + stepSize j ≤ 255 ∧
      (stages 1 j (Work.start v)).r.toNat ≤ ((List.range' 1 j).map stepSize).sum) ∧
    ((List.range' 1 8).map stepSize).sum = 255

/-- R91: the final working value is 1 for a nonzero operand and 0 for zero; for zero every decision bit is 0 and the cascade
leaves `r = 0`, which is no result; the zero detector may be read from bit 0 of the final `w`. -/
def Obligations.FinalWorkingValueTellsZero : Prop :=
  ∀ v : Operand,
    (cascade v).w = (if v = 0#256 then 0#256 else 1#256) ∧
    (v = 0#256 → (cascade v).r = 0#8 ∧ findMsb v = .error .invalidInput ∧
      ∀ j, 1 ≤ j → j ≤ 8 → stageTaken (stepSize j) (stages 1 (j - 1) (Work.start v)).w = false) ∧
    zeroDetect v = !(cascade v).w.getLsbD 0

/-- R78 to R85 (positions, windows and corner cases): what enters stage `j` is below `2^(2s)` with `r` a multiple of `2s`; the
stage decides by its window, widens it or keeps the value, leaves `w < 2^s`, and its decision is bit `8 - j` of the result. -/
def Obligations.EachStageHalvesItsWindow : Prop :=
  ∀ (v : Operand) (j : Nat), 1 ≤ j → j ≤ 8 →
    ∃ x y : Work, x = stages 1 (j - 1) (Work.start v) ∧ y = stages 1 j (Work.start v) ∧
      x.w.toNat < 2 ^ (2 * stepSize j) ∧ 2 * stepSize j ∣ x.r.toNat ∧
      (takenByWindow (stepSize j) x.w = true →
        y.w = (x.w.extractLsb' (stepSize j) (stepSize j)).setWidth 256 ∧ y.r.toNat = x.r.toNat + stepSize j) ∧
      (takenByWindow (stepSize j) x.w = false → y = x) ∧
      y.w.toNat < 2 ^ stepSize j ∧
      (cascade v).r.getLsbD (8 - j) = takenByWindow (stepSize j) x.w

/-- D21 and D23 with R69, R88, R89 and R91: the cascade of narrow stages, the OR for the add, the subtraction for the
complement, the comparison for the test and the zero detector on the final value are all equal to the block's own forms. -/
def Obligations.AllowedRealisationsAgree : Prop :=
  (∀ v : Operand, windowCascade v = cascade v) ∧
  (∀ v : Operand, zeroDetectFromCascade v = zeroDetect v) ∧
  (∀ (s : Nat) (w : Operand), takenByCompare s w = stageTaken s w) ∧
  (∀ r : Result, lzcBySubtraction r = lzcOf r)

/-- R67: the stages run in strictly decreasing step size, and the ascending order is another function: it yields 3 for 83,
where the result is 6, and 127 for `2^200`, where it is 200. -/
def Obligations.AscendingOrderIsAnotherFunction : Prop :=
  (∀ j k, 1 ≤ j → j < k → k ≤ 8 → stepSize k < stepSize j) ∧
  (ascendingCascade 83#256).r = 3#8 ∧ findMsb 83#256 = .ok 6#8 ∧
  (ascendingCascade (1#256 <<< 200)).r = 127#8 ∧ findMsb (1#256 <<< 200) = .ok 200#8

/-! ## The contract of FMSB (40_msb_operation.md) -/

/-- R59 and R60: for every nonzero `v`, FMSB returns `Ok(r)` with `2^r <= v < 2^(r+1)`; equivalently bit `r` is 1 and every bit
above is 0; and no other index satisfies the bounds. -/
def Obligations.FindMsbBracketsTheOperand : Prop :=
  ∀ v : Operand, v ≠ 0#256 → ∃ r : Result, findMsb v = .ok r ∧
    2 ^ r.toNat ≤ v.toNat ∧ v.toNat < 2 ^ (r.toNat + 1) ∧
    v.getLsbD r.toNat = true ∧ (∀ i, r.toNat < i → v.getLsbD i = false) ∧
    (∀ n, 2 ^ n ≤ v.toNat → v.toNat < 2 ^ (n + 1) → n = r.toNat)

/-- R62: for nonzero operands `v1 <= v2` the results are in the same order. -/
def Obligations.FindMsbIsMonotone : Prop :=
  ∀ v1 v2 : Operand, v1 ≠ 0#256 → v1.toNat ≤ v2.toNat →
    ∃ r1 r2 : Result, findMsb v1 = .ok r1 ∧ findMsb v2 = .ok r2 ∧ r1.toNat ≤ r2.toNat

/-- R63: `msb(2^k) = k`, and `msb(2^(k+1) - 1) = k`, for every `k` in [0, 255]. -/
def Obligations.PowersOfTwoAreExact : Prop :=
  ∀ k, k ≤ 255 →
    findMsb (BitVec.ofNat 256 (2 ^ k)) = .ok (BitVec.ofNat 8 k) ∧
    findMsb (BitVec.ofNat 256 (2 ^ (k + 1) - 1)) = .ok (BitVec.ofNat 8 k)

/-- R64: 1 gives 0, `2^255` gives 255, `2^256 - 1` gives 255, and 0 gives the domain error. -/
def Obligations.BoundaryOperands : Prop :=
  findMsb 1#256 = .ok 0#8 ∧ findMsb (1#256 <<< 255) = .ok 255#8 ∧
  findMsb (BitVec.allOnes 256) = .ok 255#8 ∧ findMsb 0#256 = .error .invalidInput

/-- R96 and R97: InvalidInput, cause code 1, comes of the operand 0 and of no other; every other operand has code 0. -/
def Obligations.InvalidInputExactlyOnZero : Prop :=
  ∀ v : Operand, (findMsb v = .error .invalidInput ↔ v = 0#256) ∧
    causeCode (findMsb v) = (if v = 0#256 then 1 else 0)

/-- The contract is the cascade with the zero detector beside it (R3, R58, R86). -/
def Obligations.FindMsbReadsTheCascade : Prop :=
  ∀ v : Operand, findMsb v = if zeroDetect v then .error .invalidInput else .ok (cascade v).r

/-- R68: `lzc = 255 - r` is the number of 0 bits above the most significant set bit of the 256-bit value. -/
def Obligations.LeadingZeroCountIsTheComplement : Prop :=
  ∀ (v : Operand) (r : Result), findMsb v = .ok r →
    (lzcOf r).toNat = 255 - r.toNat ∧
    (lzcOf r).toNat = (List.range 256).countP (fun i => decide (r.toNat < i) && !v.getLsbD i) ∧
    (∀ i, r.toNat < i → v.getLsbD i = false)

/-- R69: `255 - r = (~r)[7:0]`; the ends are `lzc(1) = 255`, `lzc(2^255) = 0` and `lzc(2^256 - 1) = 0`. -/
def Obligations.ComplementIsSubtractionFrom255 : Prop :=
  (∀ r : Result, 255#8 - r = ~~~r ∧ lzcOf r = ~~~r) ∧
  leadingZerosOf (some (findMsb 1#256)) = some 255#8 ∧
  leadingZerosOf (some (findMsb (1#256 <<< 255))) = some 0#8 ∧
  leadingZerosOf (some (findMsb (BitVec.allOnes 256))) = some 0#8

/-! ## Encoding (30_encoding.md) -/

/-- Decode and encode agree in both directions: every well-formed instruction is read back from its word with every field, and
every input word is the word of the instruction it decodes to (R48, R51, R52). -/
def Obligations.DecodeInvertsEncode : Prop :=
  (∀ i : Instr, i.wellFormed = true → decode (encode i) = i) ∧
  (∀ w : InWord, encode (decode w) = w ∧ (decode w).wellFormed = true)

/-- R51: the control field selects the operation, over all four values; exactly one row of the opcode table matches every word,
and it is the row of the decoded operation; the rows have the rule's masks and matches. -/
def Obligations.ControlFieldSelectsTheOperation : Prop :=
  ∀ w : InWord,
    (controlField w = 0b00#2 → decode w = .idle (operandField w)) ∧
    (controlField w = 0b01#2 → decode w = .fmsb (operandField w)) ∧
    (controlField w = 0b10#2 → decode w = .reset false (operandField w)) ∧
    (controlField w = 0b11#2 → decode w = .reset true (operandField w)) ∧
    (∃ row, opcodeRows.filter (fun row => row.matchesWord w) = [row] ∧ row.mnemonic = (decode w).mnemonic) ∧
    opcodeRows.map (fun row => (row.mnemonic, row.maskBits, row.matchBits)) =
      [("RESET", 2 * 2 ^ 256, 2 * 2 ^ 256), ("FMSB", 3 * 2 ^ 256, 2 ^ 256), ("IDLE", 3 * 2 ^ 256, 0)]

/-- R48: `word = rst * 2^257 + in_valid * 2^256 + v`, bit `i` of `v` at word bit `i`. -/
def Obligations.InWordIsItsPortsByWeight : Prop :=
  ∀ (w : InWord),
    w.toNat = (Sample.ofWord w).rst.toNat * 2 ^ 257 + (Sample.ofWord w).inValid.toNat * 2 ^ 256 + (Sample.ofWord w).v.toNat ∧
    (∀ i, i < 256 → (Sample.ofWord w).v.getLsbD i = w.getLsbD i) ∧
    controlField w = BitVec.ofBool (Sample.ofWord w).rst ++ BitVec.ofBool (Sample.ofWord w).inValid

/-- The output word OUT18 (R49): its fields by weight, both directions, and the word of a valid, error-free result. -/
def Obligations.OutWordIsItsPortsByWeight : Prop :=
  (∀ o : OutPorts, OutPorts.ofWord o.toWord = o ∧
    o.toWord.toNat = o.valid.toNat * 2 ^ 17 + o.err.toNat * 2 ^ 16 + o.lzc.toNat * 2 ^ 8 + o.msb.toNat) ∧
  (∀ w : OutWord, (OutPorts.ofWord w).toWord = w) ∧
  (∀ (n : Nat) (r : Result), (assembleOutputs n true false r).toWord.toNat = 2 ^ 17 + (255 - r.toNat) * 2 ^ 8 + r.toNat)

/-- A number with a bit above 257 is no input word and is rejected by name; any other number decodes (R48, R52, R53; the
rejection is the model's own, log 11). -/
def Obligations.EveryInWordDecodes : Prop :=
  ∀ n : Nat, (n < 2 ^ 258 → decodeNumber n = .ok (decode (BitVec.ofNat 258 n))) ∧
    (2 ^ 258 ≤ n → decodeNumber n = .error .widerThanInWord)

/-- Words written out from the spec's layout decode to their operations (R48, R51; the rows of 95_test_vectors.md 2.6). -/
def Obligations.WrittenOutWordsDecode : Prop :=
  decode 0x0000000000000000000000000000000000000000000000000000000000000DEAD#258 = .idle 0xDEAD#256 ∧
  decode 0x10000000000000000000000000000000000000000000000000000000000000053#258 = .fmsb 83#256 ∧
  decode 0x10000000000000000000000000000000000000000000000000000000000000000#258 = .fmsb 0#256 ∧
  decode 0x20000000000000000000000000000000000000000000000000000000000000000#258 = .reset false 0#256 ∧
  decode 0x30000000000000000000000000000000000000000000000000000000000000009#258 = .reset true 9#256

/-! ## The operations, one edge at a time (40_msb_operation.md, 41_halving_stages.md R92 to R94) -/

/-- FMSB completes, with LATENCY >= 1 and a reset edge behind it (R93): `P[1]` takes the transaction through the stages 1 to
`c_1` with its zero flag; `P[2]` to `P[L]` advance; the cycle shows `P[L]`; the build, the host's lines and the boot mark stay. -/
def Obligations.FmsbEntersThePipeline : Prop :=
  ∀ (v : Operand) (s : State) (c : Nat), s.wellFormed = true → s.booted = true → s.build.cuts.head? = some c →
    ∃ t p, exec (.fmsb v) s = .next t ∧
      t.regs.head? = some p ∧ p.valid = true ∧ p.z = (v == 0#256) ∧ (⟨p.w, p.r⟩ : Work) = stages 1 c ⟨v, 0#8⟩ ∧
      s.AdvancedTo t ∧ s.ShownOn t.out ∧ s.SameSetting t

/-- IDLE completes, with LATENCY >= 1 and a reset edge behind it (R70): `P[1].valid` becomes 0, every other register advances as
without it, the cycle shows `P[L]`, and the rest stays. -/
def Obligations.IdleLetsInABubble : Prop :=
  ∀ (v : Operand) (s : State), s.wellFormed = true → s.booted = true → 1 ≤ s.build.latency →
    ∃ t p, exec (.idle v) s = .next t ∧
      t.regs.head? = some p ∧ p.valid = false ∧
      s.AdvancedTo t ∧ s.ShownOn t.out ∧ s.SameSetting t

/-- RESET completes in every state, power-up included, for every value of `in_valid` and `v` (R71, R112): every valid bit is 0
afterwards, for as many registers as the build has; a reset edge has happened; the build and the host's lines stay. The RESET
cycle itself still shows `P[L]` of before the edge when LATENCY >= 1, and no result when LATENCY = 0. Any other values of
`in_valid` and `v` leave a state that agrees, and outputs that read the same wherever they carry meaning: compared is what the
spec gives a value (R20, R28, R32). -/
def Obligations.ResetDiscardsEverything : Prop :=
  ∀ (inValid : Bool) (v : Operand) (s : State),
    ∃ t, exec (.reset inValid v) s = .next t ∧
      t.Empty ∧ t.regs.length = s.build.latency ∧ t.booted = true ∧ t.build = s.build ∧ t.input = s.input ∧
      (s.wellFormed = true → s.booted = true → s.ShownOn t.out) ∧
      (s.build.latency = 0 → t.out.valid = false) ∧
      ∀ (b : Bool) (u : Operand), ∃ t', exec (.reset b u) s = .next t' ∧ t.Agrees t' ∧ (s.Meaningful → t.out.Agrees t'.out)

/-- R94, LATENCY = 0: the outputs of the very cycle are `out_valid = in_valid AND NOT rst`, `err = (v == 0)`, and for a nonzero
operand the result and its leading-zero count; no register exists; every operation completes. -/
def Obligations.CombinationalForm : Prop :=
  ∀ s : State, s.build.latency = 0 →
    (∀ v : Operand, ∃ t, exec (.fmsb v) s = .next t ∧ t.regs = [] ∧ s.SameSetting t ∧
      t.out.valid = true ∧ t.out.err = (v == 0#256) ∧
      (v ≠ 0#256 → t.out.msb = (stages 1 8 ⟨v, 0#8⟩).r ∧ t.out.lzc = ~~~(stages 1 8 ⟨v, 0#8⟩).r)) ∧
    (∀ v : Operand, ∃ t, exec (.idle v) s = .next t ∧ t.regs = [] ∧ s.SameSetting t ∧ t.out.valid = false) ∧
    (∀ (b : Bool) (v : Operand), ∃ t, exec (.reset b v) s = .next t ∧ t.regs = [] ∧ t.build = s.build ∧ t.input = s.input ∧
      t.out.valid = false)

/-- Before the first reset edge, with LATENCY >= 1, FMSB and IDLE complete too; they leave the block without that edge, with as
many registers as the build has and the build and the host's lines unchanged (R32, R115; that nothing more can be said of the
registers is the model's reading, log 5). -/
def Obligations.OperationsBeforeTheFirstReset : Prop :=
  ∀ (v : Operand) (s : State), s.booted = false → 1 ≤ s.build.latency →
    (∃ t, exec (.fmsb v) s = .next t ∧ t.regs.length = s.build.latency ∧ s.SameSetting t) ∧
    (∃ t, exec (.idle v) s = .next t ∧ t.regs.length = s.build.latency ∧ s.SameSetting t)

/-- The don't-cares of R51, R52, R70 and R71: no value of `v` under IDLE, and none of `in_valid` and `v` under RESET, makes a
difference to the next state or to what the cycle's outputs read as. Compared is what the spec gives a value (R20, R28, R32):
the two states may differ in every `any` field and in the number of the next draw, so nothing here rests on log 3. -/
def Obligations.IgnoredFieldsHaveNoEffect : Prop :=
  (∀ (v v' : Operand) (s s' : State), s.wellFormed = true → s.Agrees s' →
    ∃ t t', exec (.idle v) s = .next t ∧ exec (.idle v') s' = .next t' ∧
      t.Agrees t' ∧ (s.Meaningful → t.out.Agrees t'.out)) ∧
  (∀ (b b' : Bool) (v v' : Operand) (s s' : State), s.wellFormed = true → s.Agrees s' →
    ∃ t t', exec (.reset b v) s = .next t ∧ exec (.reset b' v') s' = .next t' ∧
      t.Agrees t' ∧ (s.Meaningful → t.out.Agrees t'.out))

/-- An InvalidInput transaction is precise (R102, R103): FMSB of 0 and FMSB of any other operand, from states that agree, leave
states that agree but for the transaction's own slot. With LATENCY >= 1 that slot is `P[1]`, whose valid bit agrees too, and the
cycle's outputs read the same; with LATENCY = 0 it is the cycle's outputs, with `out_valid = 1` both times, and the states agree.
Compared is what the spec gives a value (R20, R28, R32), so nothing here rests on log 3; before the first reset edge of a block
with registers that is the build, the host's lines and the number of registers only (R32, and log 5). -/
def Obligations.ZeroOperandChangesOnlyItsOwnSlot : Prop :=
  ∀ (v : Operand) (s s' : State), s.wellFormed = true → s.Agrees s' →
    ∃ t t', exec (.fmsb 0#256) s = .next t ∧ exec (.fmsb v) s' = .next t' ∧
      t'.build = t.build ∧ t'.input = t.input ∧ t'.booted = t.booted ∧ t.regs.length = t'.regs.length ∧
      (s.booted = true → RegsAgree t.regs.tail t'.regs.tail ∧ t.regs.map Reg.valid = t'.regs.map Reg.valid) ∧
      (s.booted = true → 1 ≤ s.build.latency → t.out.Agrees t'.out) ∧
      (s.build.latency = 0 → t.Agrees t' ∧ t.out.valid = true ∧ t'.out.valid = true)

/-- Whatever stands in the `any` fields of the block, no operation lets it reach a value that the spec gives (R20: "no claim may
depend on them"; R28, R32): from two states that agree, one operation leaves two states that agree, and the outputs of the cycle
read the same wherever they carry meaning. The two states may draw their free values at different ticks. -/
def Obligations.FreeValuesReachNoReading : Prop :=
  ∀ (i : Instr) (s s' : State), s.wellFormed = true → s.Agrees s' →
    ∃ t t', exec i s = .next t ∧ exec i s' = .next t' ∧ t.Agrees t' ∧ (s.Meaningful → t.out.Agrees t'.out)

/-- R92: the outputs of a result cycle are `out_valid = 1` and `err = z`; with `z = 0` they are `msb = r_final` and
`lzc = (~r_final)[7:0]`, which is `255 - r_final`. -/
def Obligations.OutputAssembly : Prop :=
  ∀ (n : Nat) (z : Bool) (r : Result),
    (assembleOutputs n true z r).valid = true ∧ (assembleOutputs n true z r).err = z ∧
    (z = false → (assembleOutputs n true z r).msb = r ∧ (assembleOutputs n true z r).lzc = ~~~r ∧
      (assembleOutputs n true z r).lzc.toNat = 255 - r.toNat)

/-- Reading the ports (R54): no result without `out_valid`, InvalidInput with `err`, else the value of `msb`; the ports `msb` and
`lzc` are read only there, so whatever stands on them elsewhere makes no difference (R20). -/
def Obligations.ReadingLooksAtNoFreePort : Prop :=
  ∀ (e : Bool) (m m' l l' : Result) (e' : Bool),
    (OutPorts.mk false e m l).outcome = none ∧
    (OutPorts.mk false e m l).leadingZeros = (OutPorts.mk false e' m' l').leadingZeros ∧
    (OutPorts.mk true true m l).outcome = some (.error .invalidInput) ∧
    (OutPorts.mk true true m l).leadingZeros = (OutPorts.mk true true m' l').leadingZeros ∧
    (OutPorts.mk true false m l).outcome = some (.ok m) ∧
    (OutPorts.mk true false m l).leadingZeros = some l

/-- R31 at the model's own reset state: it is what a RESET edge makes of the reference build at power-up; LATENCY is 8 with
STAGE_CUTS {1, ..., 8}, every valid bit is 0, and whatever the ports carry the next cycle shows no result. (The draws that stand
in its data fields and ports are the spec's `any`, log 4.) -/
def Obligations.ResetStateIsAResetEdgeAfterPowerUp : Prop :=
  exec (.reset false 0#256) (State.powerUp Build.reference) = .next State.reset ∧
  State.reset.build.latency = 8 ∧ State.reset.build.cuts = [1, 2, 3, 4, 5, 6, 7, 8] ∧
  State.reset.Empty ∧ State.reset.regs.length = 8 ∧
  ∀ i : Sample, (outputs State.reset i).valid = false

/-! ## The step -/

/-- A step runs the decoded operation (R47): of the first listed line when it has no feedback wire, of a freely driven word when
no line is listed, and, when LATENCY >= 1, of the word completed by the registered outputs when it has wires (R121); the host
then moves on to its next line. The list of lines and the free word where none is listed (log 7), `withFetchWord` (log 8) and the
wires (log 9) are the model's own DESIGN CHOICES, no rules of the spec. -/
def Obligations.StepRunsTheDecodedOperation : Prop :=
  (∀ (s : State) (d : HostLine) (ds : List HostLine), s.input = d :: ds → d.feedback = [] →
    step s = exec (decode d.word) { s with input := ds }) ∧
  (∀ s : State, s.input = [] → step s = exec (decode (Config.freeInput (s.tick + 1))) s) ∧
  (∀ (s : State) (d : HostLine) (ds : List HostLine), s.input = d :: ds → 1 ≤ s.build.latency →
    step s = exec (decode (d.drivenWord (registeredOutputs s).toWord)) { s with input := ds }) ∧
  (∀ (s : State) (n w : Nat), step (s.withFetchWord n w) =
    exec (decode (BitVec.ofNat 258 (w % 2 ^ n))) { s with input := s.input.tail })

/-- R97 and R117 with R121: no step faults; a step is refused exactly when LATENCY = 0 and the host feeds an output back in the
same cycle, and by that name; any other step gives a next state. (The list of lines, log 7, and the wires, log 9, are the
model's own form of the host.) -/
def Obligations.OnlyACombinationalLoopStops : Prop :=
  ∀ s : State,
    (step s = .refused .combinationalLoop ↔
      s.build.latency = 0 ∧ ∃ d ds, s.input = d :: ds ∧ d.feedback ≠ []) ∧
    (step s = .refused .combinationalLoop ∨ ∃ t, step s = .next t)

/-- A feedback wire puts one bit of the output word on one bit of the input word and leaves every other bit as driven (R121; the
form of the wires is the model's own, log 9). -/
def Obligations.FeedbackWireCarriesOneBit : Prop :=
  ∀ (w : InWord) (x : FeedbackWire) (xs : List FeedbackWire) (o : OutWord) (i : Nat), i < 258 →
    (HostLine.drivenWord ⟨w, xs ++ [x]⟩ o).getLsbD i =
      (if i = x.toIn.val then o.getLsbD x.fromOut.val else (HostLine.drivenWord ⟨w, xs⟩ o).getLsbD i) ∧
    (HostLine.drivenWord ⟨w, []⟩ o) = w

/-- The lines of a stimulus program, one for each cycle, put on the input ports, run as their operations in order (R47, R56). (The list of lines is the model's own form of the host,
log 7.) -/
def Obligations.ProgramLinesRunInOrder : Prop :=
  ∀ (is : List Instr) (s : State) (rest : List HostLine),
    ∃ t, stepMany is.length { s with input := hostLines is ++ rest } = some t ∧
      runAll is { s with input := rest } = some t ∧ t.input = rest

/-! ## Invariants -/

/-- Every step keeps a sound state sound: the registers fit a legal build, and after a reset edge each valid register holds a
genuine partial computation of some operand (R10, R28, R86, R93). -/
def Obligations.StepKeepsSoundness : Prop :=
  ∀ s t : State, s.Sound → step s = .next t → t.Sound

/-- The reset state is sound, and so is the state at power-up of every legal build (R31, R32). -/
def Obligations.ResetAndPowerUpAreSound : Prop :=
  State.reset.Sound ∧ ∀ b : Build, b.wellFormed = true → (State.powerUp b).Sound

/-- R10, R17 and R31: a legal LATENCY is 0 to 8, and no step changes LATENCY or STAGE_CUTS; once a reset edge has happened it has
happened for good; at most LATENCY transactions are in flight (R30). -/
def Obligations.StepKeepsTheBuild : Prop :=
  (∀ b : Build, b.wellFormed = true → b.latency ≤ 8 ∧ ∀ c ∈ b.cuts, 1 ≤ c ∧ c ≤ 8) ∧
  (∀ s t : State, step s = .next t →
    t.build = s.build ∧ (s.booted = true → t.booted = true) ∧
    (s.wellFormed = true → t.inFlight ≤ t.build.latency))

/-! ## Whole runs (20_memory.md, 70_reset_and_hazards.md) -/

/-- R113 and R116: with a reset edge behind it (or LATENCY = 0), the operation of one cycle decides what the outputs show exactly
LATENCY cycles later, whatever the block held before: the outcome of the contract when it was an FMSB and no RESET came at the
LATENCY - 1 edges after its own, and no result otherwise. An operation at the result cycle's own edge makes no difference. The
leading-zero count goes with it (R68). -/
def Obligations.ResultComesExactlyLatencyCyclesLater : Prop :=
  ∀ (s : State) (i : Instr) (is : List Instr), s.wellFormed = true → s.Meaningful → is.length = s.build.latency →
    ∃ t, runAll (i :: is) s = some t ∧
      t.out.outcome = resultOf i is.dropLast ∧
      t.out.leadingZeros = leadingZerosOf (resultOf i is.dropLast)

/-- R42: from an empty pipeline, the results of a whole run leave in the order of acceptance, each exactly LATENCY cycles after
its acceptance and in no other cycle, unless a reset discarded it; none is reordered, merged, duplicated or dropped. -/
def Obligations.RunDeliversResultsInOrder : Prop :=
  ∀ (s : State) (is : List Instr), s.wellFormed = true → s.Meaningful → s.Empty →
    (readings is s).length = is.length ∧
    ∀ n, n < is.length → (readings is s)[n]? =
      if n < s.build.latency then some none
      else (is[n - s.build.latency]?).map
        (fun i => resultOf i ((is.drop (n - s.build.latency + 1)).take (s.build.latency - 1)))

/-- R114: after a reset edge `out_valid = 0` for LATENCY cycles, whatever the operations are; the first possible result comes
LATENCY + 1 cycles after it, for a transaction accepted at the next edge. -/
def Obligations.NoResultForLatencyCyclesAfterReset : Prop :=
  ∀ (s : State) (b : Bool) (v : Operand),
    (∀ is : List Instr, 1 ≤ is.length → is.length ≤ s.build.latency →
      ∃ t, runAll (.reset b v :: is) s = some t ∧ t.out.valid = false) ∧
    (∀ (u : Operand) (is : List Instr), s.build.wellFormed = true → 1 ≤ s.build.latency → is.length = s.build.latency →
      is.dropLast.any Instr.isReset = false →
      ∃ t, runAll (.reset b v :: .fmsb u :: is) s = some t ∧ t.out.outcome = some (findMsb u))

/-- Two builds of the same LATENCY, their registers empty, show the same on their outputs in every cycle of every run, wherever
their registers sit (R95; V-T7 of 95_test_vectors.md): the same outcome, which fixes `out_valid`, `err` and `msb` wherever the
spec gives them a value, and the same leading-zero count. -/
def Obligations.PlacementDoesNotChangeResults : Prop :=
  ∀ (s s' : State) (is : List Instr), s.wellFormed = true → s'.wellFormed = true → s.Meaningful → s'.Meaningful →
    s.Empty → s'.Empty → s.build.latency = s'.build.latency →
    readings is s = readings is s' ∧ countReadings is s = countReadings is s'

/-- R61 with R38 and R41: the outcome of a transaction that completes depends on its operand alone: not on time, on what the
block held, on the other operations of the run, on LATENCY or on STAGE_CUTS. -/
def Obligations.OutcomeDependsOnTheOperandAlone : Prop :=
  ∀ (v : Operand) (s s' : State) (is is' : List Instr),
    s.wellFormed = true → s'.wellFormed = true → s.Meaningful → s'.Meaningful →
    is.length = s.build.latency → is'.length = s'.build.latency →
    is.dropLast.any Instr.isReset = false → is'.dropLast.any Instr.isReset = false →
    ∃ t t', runAll (.fmsb v :: is) s = some t ∧ runAll (.fmsb v :: is') s' = some t' ∧
      t.out.outcome = t'.out.outcome ∧ t.out.outcome = some (findMsb v) ∧ t.out.leadingZeros = t'.out.leadingZeros

/-- R57: the pseudo-instructions expand to their lines; after the last line of DRAIN no transaction accepted before it is in
flight; with LATENCY = 0 DRAIN expands to no lines. -/
def Obligations.PseudoInstructionsExpand : Prop :=
  (∀ L n : Nat, (AsmLine.wait n).expand L = .ok (List.replicate n (.idle 0#256))) ∧
  (∀ L : Nat, AsmLine.drain.expand L = .ok (List.replicate L (.idle 0#256))) ∧
  (∀ L : Nat, AsmLine.init.expand L = .ok [.reset false 0#256]) ∧
  AsmLine.drain.expand 0 = .ok [] ∧
  (∀ s : State, s.wellFormed = true → s.Meaningful →
    ∃ t, runAll (List.replicate s.build.latency (.idle 0#256)) s = some t ∧ t.inFlight = 0)

/-- The value of a line (R56): a number is itself, and `2^k`, `2^k-1` and `2^k+m` are evaluated exactly; a value that fits in
256 bits becomes the operand, and a value of `2^256` or more is refused. -/
def Obligations.OperandsOf256BitsOnly : Prop :=
  (∀ n : Nat, (AsmValue.number n).eval = n) ∧
  (∀ k : Nat, (AsmValue.power k).eval = 2 ^ k) ∧
  (∀ k : Nat, (AsmValue.powerLessOne k).eval = 2 ^ k - 1) ∧
  (∀ k m : Nat, (AsmValue.powerPlus k m).eval = 2 ^ k + m) ∧
  ∀ x : AsmValue,
    (∀ L : Nat, x.eval < 2 ^ 256 → ∃ v : Operand, v.toNat = x.eval ∧ (AsmLine.fmsb x).expand L = .ok [.fmsb v] ∧
      (AsmLine.idle (some x)).expand L = .ok [.idle v] ∧ (AsmLine.reset (some x)).expand L = .ok [.reset false v] ∧
      (AsmLine.resetV (some x)).expand L = .ok [.reset true v]) ∧
    (∀ L : Nat, 2 ^ 256 ≤ x.eval → (AsmLine.fmsb x).expand L = .error .valueTooWide ∧
      (AsmLine.idle (some x)).expand L = .error .valueTooWide ∧ (AsmLine.reset (some x)).expand L = .error .valueTooWide ∧
      (AsmLine.resetV (some x)).expand L = .error .valueTooWide)
end

