-- ==== Sys2Proof/Laws/Datapath.lean ====
section
/-! SUPPORT. What one stage does, and what a run of stages from `(v, 0)` has done so far. -/

namespace Sys2Proof.Machine

/-- The decision of a stage as a comparison. -/
theorem stageTaken_iff_le (s : Nat) (w : Operand) : stageTaken s w = true ↔ 2 ^ s ≤ w.toNat := by
  have h : w >>> s = 0#256 ↔ w.toNat / 2 ^ s = 0 := by
    rw [← BitVec.toNat_inj, BitVec.toNat_ushiftRight, Nat.shiftRight_eq_div_pow]
    simp
  have hp : 0 < 2 ^ s := Nat.two_pow_pos s
  rw [stageTaken, bne_iff_ne, Ne, h, Nat.div_eq_zero_iff]
  omega

theorem stage_of_taken {s : Nat} {x : Work} (h : stageTaken s x.w = true) :
    stage s x = { w := x.w >>> s, r := x.r + BitVec.ofNat 8 s } := by simp [stage, h]

theorem stage_of_not_taken {s : Nat} {x : Work} (h : stageTaken s x.w = false) : stage s x = x := by simp [stage, h]

theorem stages_of_lt {a b : Nat} (h : b < a) (x : Work) : stages a b x = x := by
  have : b + 1 - a = 0 := by omega
  simp [stages, this]

/-- A run of stages ends with its last stage. -/
theorem stages_snoc {a b : Nat} (h : a ≤ b + 1) (x : Work) :
    stages a (b + 1) x = stage (stepSize (b + 1)) (stages a b x) := by
  have h1 : b + 1 + 1 - a = (b + 1 - a) + 1 := by omega
  have h2 : a + (b + 1 - a) = b + 1 := by omega
  simp [stages, h1, List.range'_1_concat, h2]

/-- What a run of the first `j` stages has done: the working value is the operand shifted right by the accumulator, it is below
`2^s` for the last step `s`, the accumulator is a multiple of `s` with room for all smaller steps, and a nonzero operand never
shifts away (R87). -/
theorem stages_progress (v : Operand) (j : Nat) (hj : j ≤ 8) :
    (stages 1 j (Work.start v)).w.toNat = v.toNat / 2 ^ (stages 1 j (Work.start v)).r.toNat ∧
    (stages 1 j (Work.start v)).w.toNat < 2 ^ stepSize j ∧
    stepSize j ∣ (stages 1 j (Work.start v)).r.toNat ∧
    (stages 1 j (Work.start v)).r.toNat + stepSize j ≤ 256 ∧
    (v ≠ 0#256 → (stages 1 j (Work.start v)).w.toNat ≠ 0) := by
  induction j with
  | zero =>
    simp only [stages_of_lt (Nat.zero_lt_one), Work.start, stepSize]
    refine ⟨by simp, v.isLt, by simp, by simp, fun hv h => hv ?_⟩
    exact BitVec.toNat_inj.mp h
  | succ j ih =>
    obtain ⟨hshift, hlt, hdvd, hroom, hne⟩ := ih (by omega)
    rw [stages_snoc (by omega)]
    generalize stages 1 j (Work.start v) = x at *
    have hdouble : stepSize j = 2 * stepSize (j + 1) := by
      simp only [stepSize]; rw [← pow_succ']; congr 1; omega
    have hs : 0 < stepSize (j + 1) := Nat.two_pow_pos _
    generalize hstep : stepSize (j + 1) = s at *
    rw [hdouble] at hlt hdvd hroom
    by_cases ht : stageTaken s x.w = true
    · rw [stage_of_taken ht]
      rw [stageTaken_iff_le] at ht
      have hr : (x.r + BitVec.ofNat 8 s).toNat = x.r.toNat + s := by
        rw [BitVec.toNat_add, BitVec.toNat_ofNat]; omega
      have hw : (x.w >>> s).toNat = x.w.toNat / 2 ^ s := by
        rw [BitVec.toNat_ushiftRight, Nat.shiftRight_eq_div_pow]
      have hp : 0 < 2 ^ s := Nat.two_pow_pos s
      simp only [hr, hw]
      refine ⟨?_, ?_, ?_, by omega, fun _ => ?_⟩
      · rw [hshift, Nat.div_div_eq_div_mul, ← pow_add]
      · rw [Nat.div_lt_iff_lt_mul hp, ← pow_add, ← two_mul]; exact hlt
      · exact (Nat.dvd_add_iff_left (dvd_refl s)).mp (dvd_trans (Dvd.intro_left 2 rfl) hdvd)
      · exact Nat.pos_iff_ne_zero.mp (Nat.div_pos ht hp)
    · rw [stage_of_not_taken (by simpa using ht)]
      rw [stageTaken_iff_le] at ht
      exact ⟨hshift, by omega, dvd_trans (Dvd.intro_left 2 rfl) hdvd, by omega, hne⟩

end Sys2Proof.Machine
end

