-- ==== Sys2Proof/Laws/Encoding.lean ====
section
/-! SUPPORT. The bits and fields of words put together from their fields (30_encoding.md R48, R49). -/

namespace Sys2Proof

/-- A word IN258 put together from its three fields, bit by bit. -/
theorem inWord_getLsbD (a b : Bool) (v : Operand) (i : Nat) :
    (BitVec.ofBool a ++ BitVec.ofBool b ++ v : InWord).getLsbD i =
      if i < 256 then v.getLsbD i else if i = 256 then b else if i = 257 then a else false := by
  refine (BitVec.getLsbD_append (x := BitVec.ofBool a ++ BitVec.ofBool b) (y := v) (i := i)).trans ?_
  rw [BitVec.getLsbD_append, BitVec.getLsbD_ofBool, BitVec.getLsbD_ofBool]
  by_cases h : i < 256
  · simp [h]
  by_cases h1 : i = 256
  · subst h1; simp
  by_cases h2 : i = 257
  · subst h2; simp
  · have e1 : ¬ i - 256 < 1 := by omega
    have e2 : ¬ i - 256 - 1 = 0 := by omega
    simp [h, h1, h2, e1, e2]

theorem operandField_append (a b : Bool) (v : Operand) :
    operandField (BitVec.ofBool a ++ BitVec.ofBool b ++ v : InWord) = v := by
  apply BitVec.eq_of_getLsbD_eq
  intro i hi
  rw [operandField, BitVec.getLsbD_extractLsb', inWord_getLsbD]
  simp [hi]

/-- Every word IN258 is put together from its fields. -/
theorem inWord_eq_append (w : InWord) :
    (BitVec.ofBool (w.getLsbD 257) ++ BitVec.ofBool (w.getLsbD 256) ++ operandField w : InWord) = w := by
  apply BitVec.eq_of_getLsbD_eq
  intro i hi
  rw [inWord_getLsbD]
  by_cases h : i < 256
  · simp [h, operandField]
  by_cases h1 : i = 256
  · simp [h1]
  · have h2 : i = 257 := by omega
    simp [h2]

/-- A word IN258 as a number: its fields by weight. -/
theorem inWord_toNat (a b : Bool) (v : Operand) :
    (BitVec.ofBool a ++ BitVec.ofBool b ++ v : InWord).toNat = (a.toNat * 2 + b.toNat) * 2 ^ 256 + v.toNat := by
  refine (BitVec.toNat_append (BitVec.ofBool a ++ BitVec.ofBool b) v).trans ?_
  rw [← Nat.shiftLeft_add_eq_or_of_lt v.isLt, BitVec.toNat_append, ← Nat.shiftLeft_add_eq_or_of_lt (BitVec.isLt _),
    BitVec.toNat_ofBool, BitVec.toNat_ofBool, Nat.shiftLeft_eq, Nat.shiftLeft_eq, pow_one]

namespace Machine

/-- An output word OUT18, bit by bit. -/
theorem OutPorts.toWord_getLsbD (o : OutPorts) (i : Nat) :
    o.toWord.getLsbD i =
      if i < 8 then o.msb.getLsbD i else if i < 16 then o.lzc.getLsbD (i - 8)
      else if i = 16 then o.err else if i = 17 then o.valid else false := by
  refine (BitVec.getLsbD_append (x := BitVec.ofBool o.valid ++ BitVec.ofBool o.err ++ o.lzc) (y := o.msb) (i := i)).trans ?_
  rw [BitVec.getLsbD_append, BitVec.getLsbD_append, BitVec.getLsbD_ofBool, BitVec.getLsbD_ofBool]
  by_cases h : i < 8
  · simp [h]
  by_cases h1 : i < 16
  · have : i - 8 < 8 := by omega
    simp [h, h1, this]
  by_cases h2 : i = 16
  · subst h2; simp
  by_cases h3 : i = 17
  · subst h3; simp
  · have e0 : ¬ i - 8 < 8 := by omega
    have e1 : ¬ i - 8 - 8 < 1 := by omega
    have e2 : ¬ i - 8 - 8 - 1 = 0 := by omega
    simp [h, h1, h2, h3, e0, e1, e2]

end Machine

end Sys2Proof
end

