-- ==== Sys2Proof/Laws/PerInstr.lean ====
section
/-! SUPPORT. Facts about the instructions as data, one lemma for each constructor. Family Fields: the control field and the
operand field of an instruction's word (30_encoding.md R48, R51). -/

namespace Sys2Proof.Laws.Fields

/-- The control field `{rst, in_valid}` and the operand that an instruction puts on the ports (R51). -/
def ports : Instr → BitVec 2 × Operand
  | .reset inValid v => (BitVec.ofBool true ++ BitVec.ofBool inValid, v)
  | .fmsb v => (0b01#2, v)
  | .idle v => (0b00#2, v)

/-- The word of the instruction carries exactly its control field and its operand. -/
def Statement (i : Instr) : Prop := controlField (encode i) = (ports i).1 ∧ operandField (encode i) = (ports i).2

/-- The control field of a word put together from its fields. -/
theorem controlField_append (a b : Bool) (v : Operand) :
    controlField (BitVec.ofBool a ++ BitVec.ofBool b ++ v : InWord) = BitVec.ofBool a ++ BitVec.ofBool b := by
  apply BitVec.eq_of_getLsbD_eq
  intro i hi
  rw [controlField, BitVec.getLsbD_extractLsb', inWord_getLsbD, BitVec.getLsbD_append, BitVec.getLsbD_ofBool,
    BitVec.getLsbD_ofBool]
  obtain rfl | rfl : i = 0 ∨ i = 1 := by omega
  · simp
  · simp

theorem reset (inValid : Bool) (v : Operand) : Statement (.reset inValid v) :=
  ⟨controlField_append true inValid v, operandField_append true inValid v⟩

theorem fmsb (v : Operand) : Statement (.fmsb v) :=
  ⟨controlField_append false true v, operandField_append false true v⟩

theorem idle (v : Operand) : Statement (.idle v) :=
  ⟨controlField_append false false v, operandField_append false false v⟩

end Sys2Proof.Laws.Fields
end

