-- ==== Sys2Proof/Laws/State.lean ====
section
/-! SUPPORT. The small lemmas of the state: one for each field of each update, so that no proof unfolds a record update. -/

namespace Sys2Proof.Machine

@[simp] theorem State.nextCycle_build (s : State) : s.nextCycle.build = s.build := rfl
@[simp] theorem State.nextCycle_regs (s : State) : s.nextCycle.regs = s.regs := rfl
@[simp] theorem State.nextCycle_input (s : State) : s.nextCycle.input = s.input.tail := rfl
@[simp] theorem State.nextCycle_out (s : State) : s.nextCycle.out = s.out := rfl
@[simp] theorem State.nextCycle_booted (s : State) : s.nextCycle.booted = s.booted := rfl
@[simp] theorem State.nextCycle_tick (s : State) : s.nextCycle.tick = s.tick := rfl

@[simp] theorem State.withFetchWord_build (s : State) (n w : Nat) : (s.withFetchWord n w).build = s.build := rfl
@[simp] theorem State.withFetchWord_regs (s : State) (n w : Nat) : (s.withFetchWord n w).regs = s.regs := rfl
@[simp] theorem State.withFetchWord_out (s : State) (n w : Nat) : (s.withFetchWord n w).out = s.out := rfl
@[simp] theorem State.withFetchWord_booted (s : State) (n w : Nat) : (s.withFetchWord n w).booted = s.booted := rfl
@[simp] theorem State.withFetchWord_tick (s : State) (n w : Nat) : (s.withFetchWord n w).tick = s.tick := rfl

@[simp] theorem clockEdge_build (i : Sample) (s : State) : (clockEdge i s).build = s.build := rfl
@[simp] theorem clockEdge_input (i : Sample) (s : State) : (clockEdge i s).input = s.input := rfl
@[simp] theorem clockEdge_booted (i : Sample) (s : State) : (clockEdge i s).booted = s.booted := rfl
@[simp] theorem clockEdge_tick (i : Sample) (s : State) : (clockEdge i s).tick = s.tick + 1 := rfl
@[simp] theorem clockEdge_out (i : Sample) (s : State) : (clockEdge i s).out = outputs s i := rfl

@[simp] theorem resetEdge_build (i : Sample) (s : State) : (resetEdge i s).build = s.build := rfl
@[simp] theorem resetEdge_input (i : Sample) (s : State) : (resetEdge i s).input = s.input := rfl
@[simp] theorem resetEdge_booted (i : Sample) (s : State) : (resetEdge i s).booted = true := rfl
@[simp] theorem resetEdge_tick (i : Sample) (s : State) : (resetEdge i s).tick = s.tick + 1 := rfl
@[simp] theorem resetEdge_out (i : Sample) (s : State) : (resetEdge i s).out = outputs s i := rfl
@[simp] theorem resetEdge_regs (i : Sample) (s : State) :
    (resetEdge i s).regs = (List.range' 1 s.build.latency).map (Reg.bubble s.draw) := rfl

@[simp] theorem Reg.bubble_valid (n k : Nat) : (Reg.bubble n k).valid = false := rfl

@[simp] theorem exec_fmsb (v : Operand) (s : State) : exec (.fmsb v) s = .next (clockEdge (fmsbSample v) s) := rfl
@[simp] theorem exec_idle (v : Operand) (s : State) : exec (.idle v) s = .next (clockEdge (idleSample v) s) := rfl
@[simp] theorem exec_reset (b : Bool) (v : Operand) (s : State) :
    exec (.reset b v) s = .next (resetEdge (resetSample b v) s) := rfl

/-- The registers fit the build exactly when there are LATENCY of them and the build is legal. -/
theorem State.wellFormed_iff (s : State) :
    s.wellFormed = true ↔ s.build.wellFormed = true ∧ s.regs.length = s.build.latency := by
  simp [State.wellFormed]

end Sys2Proof.Machine
end

