-- ==== Sys2Proof/Laws/Pipeline.lean ====
section
/-! SUPPORT. What the outputs of a cycle and an edge do, said once. -/

namespace Sys2Proof.Machine

/-! ## Output assembly and reading -/

@[simp] theorem assembleOutputs_valid (n : Nat) (b z : Bool) (r : Result) : (assembleOutputs n b z r).valid = b := rfl

/-- A reading of assembled outputs never looks at a free value. -/
theorem assembleOutputs_outcome (n : Nat) (b z : Bool) (r : Result) :
    (assembleOutputs n b z r).outcome = if b then some (if z then .error .invalidInput else .ok r) else none := by
  cases b <;> cases z <;> rfl

theorem assembleOutputs_leadingZeros (n : Nat) (b z : Bool) (r : Result) :
    (assembleOutputs n b z r).leadingZeros = if b && !z then some (lzcOf r) else none := by
  cases b <;> cases z <;> rfl

theorem outputs_of_latency_zero {s : State} (h : s.build.latency = 0) (i : Sample) :
    outputs s i = combinationalOutputs s.draw i := by simp [outputs, h]

theorem outputs_of_latency_pos {s : State} (h : 1 ≤ s.build.latency) (i : Sample) :
    outputs s i = registeredOutputs s := by
  have : s.build.latency ≠ 0 := by omega
  simp [outputs, this]

/-- With LATENCY >= 1 and a reset edge behind it the outputs are assembled from the last register. -/
theorem registeredOutputs_eq {s : State} {c : Nat} {p : Reg} (hb : s.booted = true) (hc : s.build.cuts.getLast? = some c)
    (hp : s.regs.getLast? = some p) :
    registeredOutputs s = assembleOutputs s.draw p.valid p.z (stages (c + 1) 8 { w := p.w, r := p.r }).r := by
  simp [registeredOutputs, hb, hc, hp]

/-! ## The transfer at an edge -/

@[simp] theorem loaded_valid (n k a b : Nat) (p : Reg) : (loaded n k a b p).valid = p.valid := by
  unfold loaded; split <;> simp_all

theorem loaded_of_valid {p : Reg} (h : p.valid = true) (n k a b : Nat) :
    loaded n k a b p =
      { valid := true, w := (stages a b ⟨p.w, p.r⟩).w, r := (stages a b ⟨p.w, p.r⟩).r, z := p.z } := by
  simp [loaded, h]

theorem loaded_of_invalid {p : Reg} (h : p.valid = false) (n k a b : Nat) : loaded n k a b p = Reg.bubble n k := by
  simp [loaded, h]

@[simp] theorem shiftFrom_length (n k cut : Nat) (src : Reg) (cs : List Nat) (ps : List Reg) :
    (shiftFrom n k cut src cs ps).length = min cs.length ps.length := by
  induction cs generalizing k cut src ps with
  | nil => simp [shiftFrom]
  | cons c cs ih => cases ps with
    | nil => simp [shiftFrom]
    | cons p ps => simp [shiftFrom, ih, Nat.succ_min_succ]

/-- The first register after the transfer. -/
theorem shiftFrom_head? {n k cut : Nat} {src : Reg} {cs : List Nat} {ps : List Reg} {c : Nat} (hc : cs.head? = some c)
    (hlen : ps.length = cs.length) : (shiftFrom n k cut src cs ps).head? = some (loaded n k (cut + 1) c src) := by
  cases cs with
  | nil => simp at hc
  | cons d cs => cases ps with
    | nil => simp at hlen
    | cons p ps => simp_all [shiftFrom]

/-- Any later register after the transfer holds what stood in the one before it, through the stages between. -/
theorem shiftFrom_getElem?_succ {n k cut m : Nat} {src p : Reg} {cs : List Nat} {ps : List Reg} {c c' : Nat}
    (hc : cs[m]? = some c) (hc' : cs[m + 1]? = some c') (hp : ps[m]? = some p) (hlen : ps.length = cs.length) :
    (shiftFrom n k cut src cs ps)[m + 1]? = some (loaded n (k + m + 1) (c + 1) c' p) := by
  induction m generalizing k cut src cs ps with
  | zero =>
    match cs, ps with
    | d :: d' :: cs, q :: q' :: ps => simp_all [shiftFrom]
    | [_], _ => simp at hc'
    | [], _ => simp at hc
    | _ :: _ :: _, [_] => simp at hlen
    | _ :: _ :: _, [] => simp at hlen
  | succ m ih =>
    match cs, ps with
    | d :: cs, q :: ps =>
      simp only [List.getElem?_cons_succ] at hc hc' hp
      simp only [shiftFrom, List.getElem?_cons_succ]
      rw [ih hc hc' hp (by simpa using hlen)]
      congr 2; omega
    | [], _ => simp at hc
    | _ :: _, [] => simp at hlen

theorem clockEdge_regs_of_booted {s : State} (h : s.booted = true) (i : Sample) :
    (clockEdge i s).regs = shiftFrom s.draw 1 0 (entering i) s.build.cuts s.regs := by simp [clockEdge, h]

theorem clockEdge_regs_of_not_booted {s : State} (h : s.booted = false) (i : Sample) :
    (clockEdge i s).regs = (List.range' 1 s.build.latency).map (Reg.unknown s.draw) := by simp [clockEdge, h]

/-! ## Agreement where the spec gives a value -/

theorem Reg.Agrees.refl (p : Reg) : p.Agrees p := ⟨rfl, fun _ => rfl⟩

theorem RegsAgree.nil : RegsAgree [] [] := ⟨rfl, by simp⟩

theorem RegsAgree.cons_iff {p q : Reg} {ps qs : List Reg} :
    RegsAgree (p :: ps) (q :: qs) ↔ p.Agrees q ∧ RegsAgree ps qs := by
  constructor
  · rintro ⟨hl, h⟩
    exact ⟨h 0 p q rfl rfl, by simpa using hl, fun k a b ha hb => h (k + 1) a b ha hb⟩
  · rintro ⟨h0, hl, h⟩
    refine ⟨by simpa using hl, fun k a b ha hb => ?_⟩
    cases k with
    | zero => cases ha; cases hb; exact h0
    | succ k => exact h k a b ha hb

/-- What a register takes over agrees when what stood before it does, whichever draws fill the rest. -/
theorem loaded_agrees {p q : Reg} (h : p.Agrees q) (n m k a b : Nat) : (loaded n k a b p).Agrees (loaded m k a b q) := by
  refine ⟨by simp [h.1], fun hv => ?_⟩
  rw [loaded_valid] at hv
  obtain rfl := h.2 hv
  rw [loaded_of_valid hv, loaded_of_valid hv]

/-- Every operation answers a next state (R117). -/
theorem exec_completes (i : Instr) (s : State) : ∃ t, exec i s = .next t := by
  cases i <;> exact ⟨_, rfl⟩

/-- Every operation keeps the fit of the registers to the build, and the build itself. -/
theorem exec_keeps_wellFormed {i : Instr} {s t : State} (hs : s.wellFormed = true) (h : exec i s = .next t) :
    t.wellFormed = true ∧ t.build = s.build := by
  rw [State.wellFormed_iff] at hs ⊢
  obtain ⟨hb, hl⟩ := hs
  have clock : ∀ smp, (clockEdge smp s).regs.length = s.build.latency := by
    intro smp
    cases hbt : s.booted with
    | true => rw [clockEdge_regs_of_booted hbt, shiftFrom_length, hl, Build.latency, Nat.min_self]
    | false => rw [clockEdge_regs_of_not_booted hbt]; simp
  cases i with
  | reset b v => cases h; exact ⟨⟨hb, by simp⟩, rfl⟩
  | fmsb v => cases h; exact ⟨⟨hb, clock _⟩, rfl⟩
  | idle v => cases h; exact ⟨⟨hb, clock _⟩, rfl⟩

/-- What a step can do: it is refused for a combinational loop, or it runs one operation on the state with the host moved on. -/
theorem step_cases (s : State) :
    step s = .refused .combinationalLoop ∨ ∃ i t, step s = .next t ∧ exec i s.nextCycle = .next t := by
  unfold step presentedWord
  dsimp only
  split
  · rename_i w _
    obtain ⟨t, ht⟩ := exec_completes (decode w) s.nextCycle
    exact .inr ⟨_, t, ht, ht⟩
  · rename_i r h
    split at h
    · cases h
    · split at h
      · cases h; exact .inl rfl
      · cases h

end Sys2Proof.Machine
end

