-- ==== Sys2Proof/Tests/Slice0.lean ====
section
/-! SUPPORT. Tests on fixed values taken from 95_test_vectors.md, the refusals of the well-formedness checks, and for each
statement with hypotheses a witness that meets them. -/

namespace Sys2Proof.Tests

open Sys2Proof.Machine

/-! ## Helpers -/

/-- A booted state of a build with given valid bits, the data fields at zero. -/
def stateOf (cuts : List Nat) (valids : List Bool) : State :=
  { build := { cuts := cuts }
    regs := valids.map (fun b => { valid := b, w := 0#256, r := 0#8, z := true })
    input := []
    out := { valid := false, err := false, msb := 0#8, lzc := 0#8 }
    booted := true
    tick := 0 }

/-- A property of the next state; false of a stop. -/
def nextSatisfies (o : Host.Outcome State Fault Refusal) (f : State → Bool) : Bool :=
  match o with
  | .next t => f t
  | .fault _ => false
  | .refused _ => false

/-- The build of program P5: three registers, after the stages 2, 5 and 8. -/
def threeStage : State := stateOf [2, 5, 8] [false, false, false]

/-- The combinational build of program P4. -/
def combinational : State := stateOf [] []

/-- The combinational build with a host that feeds `msb` bit 0 back to `v` bit 0. -/
def looped : State := { combinational with input := [{ word := encode (.fmsb 83#256), feedback := [⟨0, 0⟩] }] }

/-! ## Well-formedness: each check refuses an ill-formed term -/

theorem test_reference_build_wellFormed : Build.reference.wellFormed = true := by decide
theorem test_empty_build_wellFormed : (Build.mk []).wellFormed = true := by decide
theorem test_cut_zero_refused : (Build.mk [0, 3]).wellFormed = false := by decide
theorem test_cut_nine_refused : (Build.mk [3, 9]).wellFormed = false := by decide
theorem test_repeated_cut_refused : (Build.mk [3, 3]).wellFormed = false := by decide
theorem test_descending_cuts_refused : (Build.mk [5, 2]).wellFormed = false := by decide
theorem test_missing_register_refused : (stateOf [2, 5, 8] [false, false]).wellFormed = false := by decide
theorem test_instr_wellFormed : (Instr.fmsb (BitVec.allOnes 256)).wellFormed = true := by decide
theorem test_value_2_256_refused : (AsmLine.fmsb (.power 256)).expand 8 = .error .valueTooWide := by decide

/-! ## Decoding, by the words of 95_test_vectors.md 2.6 and the programs -/

theorem test_decode_fmsb_83 :
    decode 0x10000000000000000000000000000000000000000000000000000000000000053#258 = .fmsb 83#256 := by decide
theorem test_decode_fmsb_2_128 :
    decode 0x10000000000000000000000000000000100000000000000000000000000000000#258 = .fmsb (1#256 <<< 128) := by decide
theorem test_decode_idle_dead :
    decode 0x0000000000000000000000000000000000000000000000000000000000000DEAD#258 = .idle 0xDEAD#256 := by decide
theorem test_decode_reset_v_9 :
    decode 0x30000000000000000000000000000000000000000000000000000000000000009#258 = .reset true 9#256 := by decide
theorem test_encode_fmsb_all_ones :
    encode (.fmsb (BitVec.allOnes 256)) = 0x1FFFFFFFFFFFFFFFFFFFFFFFFFFFFFFFFFFFFFFFFFFFFFFFFFFFFFFFFFFFFFFFF#258 := by decide
theorem test_table_word_reset :
    decodeTableWord 264 0x20000000000000000000000000000000000000000000000000000000000000000 = some (.reset false 0#256) := by
  decide
theorem test_table_word_too_wide : decodeTableWord 264 (4 * 2 ^ 256) = none := by decide

/-- OUT18 for 83, 2^255 and 1: `0x2F906`, `0x200FF`, `0x2FF00`. -/
theorem test_out_words :
    (assembleOutputs 0 true false 6#8).toWord = 0x2F906#18 ∧
    (assembleOutputs 0 true false 255#8).toWord = 0x200FF#18 ∧
    (assembleOutputs 0 true false 0#8).toWord = 0x2FF00#18 := by decide

/-! ## Stages and the contract, by 95_test_vectors.md 2.1 to 2.5 -/

theorem test_stage_128_taken : stage 128 ⟨0x100000000000000000000000000000000#256, 0#8⟩ = ⟨1#256, 128#8⟩ := by decide
theorem test_stage_64_not_taken :
    stage 64 ⟨0xFFFFFFFFFFFFFFFF#256, 128#8⟩ = ⟨0xFFFFFFFFFFFFFFFF#256, 128#8⟩ := by decide
theorem test_stage_1_full : stage 1 ⟨3#256, 254#8⟩ = ⟨1#256, 255#8⟩ := by decide
/-- Trace T13 after the stages 1 to 4. -/
theorem test_trace_T13 :
    stages 1 4 (Work.start 0x123456789ABCDEF0000000000000000000000000#256) = ⟨0x1234#256, 144#8⟩ := by decide
theorem test_findMsb_dead : findMsb 0xDEAD#256 = .ok 15#8 := by decide
theorem test_findMsb_2_255_less_one : findMsb (BitVec.ofNat 256 (2 ^ 255 - 1)) = .ok 254#8 := by decide
theorem test_lzc_156 : lzcOf 156#8 = 99#8 := by decide

/-! ## One edge at a time -/

/-- P5, cycle 3: `P[1]` after the edge that accepts `2^256 - 1` is (1, 192, 0xFFFFFFFFFFFFFFFF). -/
theorem test_fmsb_fills_first_register :
    nextSatisfies (exec (.fmsb (BitVec.allOnes 256)) threeStage)
      (fun t => t.regs.head? == some ⟨true, 0xFFFFFFFFFFFFFFFF#256, 192#8, false⟩) = true := by decide

/-- P4, cycle 0: with LATENCY = 0 the result of 83 is on the outputs of its own cycle. -/
theorem test_fmsb_combinational :
    nextSatisfies (exec (.fmsb 83#256) combinational) (fun t => t.out == ⟨true, false, 6#8, 249#8⟩) = true := by decide

/-- V-ID1: `P[1].valid = 0`, and each other valid bit is the old one before it. -/
theorem test_idle_moves_valid_bits :
    nextSatisfies (exec (.idle 0xDEAD#256) (stateOf [2, 5, 8] [true, false, true]))
      (fun t => t.regs.map Reg.valid == [false, true, false]) = true := by decide

/-- The cycle of an IDLE shows `P[3]`: a zero operand gives InvalidInput in its result slot. -/
theorem test_idle_shows_last_register :
    nextSatisfies (exec (.idle 0#256) (stateOf [2, 5, 8] [false, false, true]))
      (fun t => t.out.valid && t.out.err) = true := by decide

/-- V-RS2: RESET.V 83 clears every valid bit and accepts nothing. -/
theorem test_reset_v_discards :
    nextSatisfies (exec (.reset true 83#256) (stateOf [2, 5, 8] [true, true, true]))
      (fun t => t.regs.map Reg.valid == [false, false, false]) = true := by decide

/-- P4, cycle 3: `rst = 1` forces `out_valid = 0` when LATENCY = 0. -/
theorem test_reset_v_combinational :
    nextSatisfies (exec (.reset true 83#256) combinational) (fun t => !t.out.valid) = true := by decide

/-- The first step after reset runs the word placed on the ports: `P[1]` of the reference build takes it. -/
theorem test_first_step_after_reset :
    nextSatisfies (step (State.reset.withFetchWord 264 0x10000000000000000000000000000000000000000000000000000000000000053))
      (fun t => t.regs.head? == some ⟨true, 83#256, 0#8, false⟩) = true := by decide

theorem test_loop_refused : nextSatisfies (step looped) (fun _ => true) = false := by decide

/-! ## The stimulus text -/

theorem test_read_fmsb : readLine "FMSB 2^256-1 ; all ones".toList = .ok (some (.fmsb (.powerLessOne 256))) := by decide
theorem test_read_hex : readLine "IDLE 0xDEAD".toList = .ok (some (.idle (some (.number 57005)))) := by decide
theorem test_read_plus : readLine "FMSB 2^8+1".toList = .ok (some (.fmsb (.powerPlus 8 1))) := by decide
theorem test_read_reset_v : readLine "RESET.V 9".toList = .ok (some (.resetV (some (.number 9)))) := by decide
theorem test_read_wait : readLine "  WAIT 2".toList = .ok (some (.wait 2)) := by decide
/-- A count that is not in decimal digits is refused (log 13). -/
theorem test_read_wait_hex : readLine "WAIT 0x2".toList = .error .unreadable := by decide
theorem test_read_comment : readLine "; nothing".toList = .ok none := by decide
theorem test_read_refused : readLine "JUMP 3".toList = .error .unreadable := by decide
/-- The text of program P3 for LATENCY = 2. -/
theorem test_assemble_P3 :
    assemble 2 [.init, .fmsb (.number 5), .wait 2, .resetV (some (.number 9)), .drain] =
      .ok [.reset false 0#256, .fmsb 5#256, .idle 0#256, .idle 0#256, .reset true 9#256, .idle 0#256, .idle 0#256] := by decide

/-! ## Witnesses: the hypotheses of each statement are met -/

theorem witness_StageShiftsAndAddsOnlyWhenTaken :
    (255 ≤ 255 ∧ stageTaken 255 (1#256 <<< 255) = true ∧ (0#8).toNat + 255 ≤ 255) ∧
    stageTaken 255 (BitVec.ofNat 256 (2 ^ 255 - 1)) = false := by decide

theorem witness_StagesSplitBetweenRegisters :
    (0 < 1 ∧ 8 < 9) ∧ 8 ≤ 8 ∧ (1 ≤ 1 ∧ 1 ≤ 1 ∧ 1 < 8 ∧ 8 ≤ 8) := by decide

/-- For CascadeInvariant, ResultBitsAreDecisionBits, AccumulatorNeverOverflows and FinalWorkingValueTellsZero. -/
theorem witness_stage_numbers_and_operands : (1 ≤ 1 ∧ 1 ≤ 8) ∧ (1 ≤ 8 ∧ 8 ≤ 8) ∧ (1#256 ≠ 0#256) ∧ (0#256 = 0#256) := by decide

theorem witness_WindowFormAgreesWithFullShift :
    (1 ≤ 1 ∧ 1 ≤ 8 ∧ (BitVec.allOnes 256).toNat < 2 ^ (2 * stepSize 1) ∧ 2 * stepSize 1 ∣ (0#8).toNat) ∧
    (1 ≤ 8 ∧ 8 ≤ 8 ∧ (3#256).toNat < 2 ^ (2 * stepSize 8) ∧ 2 * stepSize 8 ∣ (254#8).toNat) := by decide

theorem witness_EachStageHalvesItsWindow :
    takenByWindow (stepSize 1) (stages 1 0 (Work.start (1#256 <<< 128))).w = true ∧
    takenByWindow (stepSize 8) (stages 1 7 (Work.start 1#256)).w = false := by decide

theorem witness_AscendingOrderIsAnotherFunction : 1 ≤ 7 ∧ 7 < 8 ∧ 8 ≤ 8 := by decide

theorem witness_FindMsbBracketsTheOperand :
    BitVec.allOnes 256 ≠ 0#256 ∧ 2 ^ 255 ≤ (BitVec.allOnes 256).toNat ∧ (BitVec.allOnes 256).toNat < 2 ^ (255 + 1) := by decide

theorem witness_FindMsbIsMonotone : 1#256 ≠ 0#256 ∧ (1#256).toNat ≤ (1#256).toNat := by decide

theorem witness_PowersOfTwoAreExact : 0 ≤ 255 ∧ 255 ≤ 255 := by decide

theorem witness_LeadingZeroCountIsTheComplement : findMsb 83#256 = .ok 6#8 ∧ findMsb (1#256 <<< 255) = .ok 255#8 := by decide

theorem witness_DecodeInvertsEncode : (Instr.reset true (BitVec.allOnes 256)).wellFormed = true := by decide

theorem witness_ControlFieldSelectsTheOperation :
    controlField (encode (.idle 5#256)) = 0b00#2 ∧ controlField (encode (.fmsb 5#256)) = 0b01#2 ∧
    controlField (encode (.reset false 5#256)) = 0b10#2 ∧ controlField (encode (.reset true 5#256)) = 0b11#2 := by decide

theorem witness_InWordIsItsPortsByWeight : 255 < 256 := by decide

theorem witness_EveryInWordDecodes : 3 * 2 ^ 256 < 2 ^ 258 ∧ 2 ^ 258 ≤ 4 * 2 ^ 256 := by decide

theorem witness_FmsbEntersThePipeline :
    threeStage.wellFormed = true ∧ threeStage.booted = true ∧ threeStage.build.cuts.head? = some 2 := by decide

theorem witness_FmsbEntersThePipeline_reset :
    State.reset.wellFormed = true ∧ State.reset.booted = true ∧ State.reset.build.cuts.head? = some 1 := by decide

theorem witness_IdleLetsInABubble :
    threeStage.wellFormed = true ∧ threeStage.booted = true ∧ 1 ≤ threeStage.build.latency := by decide

theorem witness_ResetDiscardsEverything :
    (threeStage.wellFormed = true ∧ threeStage.booted = true ∧ threeStage.Meaningful) ∧ combinational.build.latency = 0 :=
  ⟨⟨by decide, rfl, .inl rfl⟩, by decide⟩

theorem witness_CombinationalForm : combinational.build.latency = 0 ∧ 83#256 ≠ 0#256 := by decide

theorem witness_OutputAssembly : false = false := by decide

theorem witness_OperationsBeforeTheFirstReset :
    (State.powerUp Build.reference).booted = false ∧ 1 ≤ (State.powerUp Build.reference).build.latency := by decide

/-- Three registers with a transaction in flight in `P[2]`. -/
def oneInFlight : State := stateOf [2, 5, 8] [false, true, false]

/-- The same block with another number of the next draw and other data in its invalid registers. -/
def otherDraws : State :=
  { oneInFlight with
    tick := 7
    regs := [Reg.bubble 5 1, { valid := true, w := 0#256, r := 0#8, z := true }, Reg.bubble 5 3] }

/-- For IgnoredFieldsHaveNoEffect, ZeroOperandChangesOnlyItsOwnSlot and FreeValuesReachNoReading: two states that agree, though
they draw their free values at different ticks. -/
theorem witness_states_that_agree :
    oneInFlight.wellFormed = true ∧ oneInFlight.Agrees otherDraws ∧ oneInFlight.Meaningful ∧ oneInFlight.booted = true ∧
    1 ≤ oneInFlight.build.latency ∧ oneInFlight.tick ≠ otherDraws.tick := by
  refine ⟨by decide, ⟨rfl, rfl, rfl, rfl, fun _ => ?_⟩, .inl rfl, rfl, by decide, by decide⟩
  exact RegsAgree.cons_iff.2 ⟨⟨rfl, nofun⟩, RegsAgree.cons_iff.2 ⟨Reg.Agrees.refl _, RegsAgree.cons_iff.2 ⟨⟨rfl, nofun⟩, RegsAgree.nil⟩⟩⟩

/-- The same for the form without registers. -/
theorem witness_states_that_agree_combinational :
    combinational.wellFormed = true ∧ combinational.Agrees { combinational with tick := 7 } ∧ combinational.Meaningful ∧
    combinational.build.latency = 0 :=
  ⟨by decide, ⟨rfl, rfl, rfl, rfl, fun _ => RegsAgree.nil⟩, .inr rfl, by decide⟩

/-- A listed line without wires, no listed line, and a listed line with a wire when LATENCY >= 1. -/
theorem witness_StepRunsTheDecodedOperation :
    (State.reset.withFetchWord 264 0).input = [{ word := 0#258, feedback := [] }] ∧ State.reset.input = [] ∧
    ({ threeStage with input := looped.input } : State).input = [{ word := encode (.fmsb 83#256), feedback := [⟨0, 0⟩] }] ∧
    1 ≤ ({ threeStage with input := looped.input } : State).build.latency :=
  ⟨rfl, rfl, rfl, by decide⟩

theorem witness_OnlyACombinationalLoopStops :
    looped.build.latency = 0 ∧ ∃ d ds, looped.input = d :: ds ∧ d.feedback ≠ [] :=
  ⟨by decide, _, _, rfl, by decide⟩

/-- The wire's own bit, the top one, and another bit. -/
theorem witness_FeedbackWireCarriesOneBit :
    ∃ x : FeedbackWire, (257 < 258 ∧ 257 = x.toIn.val) ∧ (0 < 258 ∧ ¬ 0 = x.toIn.val) :=
  ⟨⟨⟨17, by omega⟩, ⟨257, by omega⟩⟩, by decide, by decide⟩

/-- One register after stage 8 that holds an in-flight transaction, and an IDLE on the ports. -/
def inFlightState : State := { stateOf [8] [true] with input := [{ word := encode (.idle 0#256), feedback := [] }] }

/-- A booted state with an in-flight transaction is sound, and it steps. -/
theorem witness_StepKeepsSoundness :
    inFlightState.regs.map Reg.valid = [true] ∧ inFlightState.Sound ∧ ∃ t, step inFlightState = .next t := by
  refine ⟨by decide, ⟨by decide, ?_⟩, ?_⟩
  · intro _ k c p hc hp _
    obtain rfl : k = 0 := by
      have := (List.getElem?_eq_some_iff.mp hc).1
      simpa [inFlightState, stateOf] using this
    cases hc
    cases hp
    exact ⟨0#256, by decide, by decide⟩
  · obtain ⟨t, ht⟩ := exec_completes (decode (encode (.idle 0#256))) inFlightState.nextCycle
    exact ⟨t, by simpa [step, presentedWord, State.hostLine, inFlightState] using ht⟩

theorem witness_ResetAndPowerUpAreSound : (Build.mk [2, 5, 8]).wellFormed = true := by decide

theorem witness_StepKeepsTheBuild :
    Build.reference.wellFormed = true ∧ nextSatisfies (step (State.reset.withFetchWord 264 0)) (fun _ => true) = true ∧
    State.reset.booted = true ∧ State.reset.wellFormed = true := by decide

theorem reset_meaningful : State.reset.Meaningful := .inl rfl

theorem combinational_meaningful : combinational.Meaningful := .inr rfl

theorem reset_empty : State.reset.Empty := by
  intro p hp
  simp only [State.reset, List.mem_cons, List.not_mem_nil, or_false] at hp
  rcases hp with rfl | rfl | rfl | rfl | rfl | rfl | rfl | rfl <;> rfl

theorem threeStage_empty : threeStage.Empty := by
  intro p hp
  simp only [threeStage, stateOf, List.map_cons, List.map_nil, List.mem_cons, List.not_mem_nil, or_false] at hp
  rcases hp with rfl | rfl | rfl <;> rfl

/-- LATENCY = 8 with a RESET among the later operations, and LATENCY = 0. -/
theorem witness_ResultComesExactlyLatencyCyclesLater :
    (State.reset.wellFormed = true ∧ State.reset.Meaningful ∧
      (List.replicate 7 (Instr.reset false 0#256) ++ [Instr.idle 0#256]).length = State.reset.build.latency) ∧
    (combinational.wellFormed = true ∧ combinational.Meaningful ∧ ([] : List Instr).length = combinational.build.latency) :=
  ⟨⟨by decide, reset_meaningful, by decide⟩, ⟨by decide, combinational_meaningful, by decide⟩⟩

/-- Cycles before and after the first result can appear. -/
theorem witness_RunDeliversResultsInOrder :
    State.reset.wellFormed = true ∧ State.reset.Meaningful ∧ State.reset.Empty ∧
    7 < (List.replicate 9 (Instr.fmsb 83#256)).length ∧ 7 < State.reset.build.latency ∧
    8 < (List.replicate 9 (Instr.fmsb 83#256)).length ∧ ¬ 8 < State.reset.build.latency :=
  ⟨by decide, reset_meaningful, reset_empty, by decide, by decide, by decide, by decide⟩

theorem witness_NoResultForLatencyCyclesAfterReset :
    (1 ≤ [Instr.fmsb 0#256].length ∧ (List.replicate 8 (Instr.fmsb 83#256)).length ≤ State.reset.build.latency) ∧
    (State.reset.build.wellFormed = true ∧ 1 ≤ State.reset.build.latency ∧
      (List.replicate 8 (Instr.idle 0#256)).length = State.reset.build.latency ∧
      (List.replicate 8 (Instr.idle 0#256)).dropLast.any Instr.isReset = false) := by decide

/-- Two builds of LATENCY 3 with different STAGE_CUTS. -/
theorem witness_PlacementDoesNotChangeResults :
    ∃ s s' : State, s.wellFormed = true ∧ s'.wellFormed = true ∧ s.Meaningful ∧ s'.Meaningful ∧ s.Empty ∧ s'.Empty ∧
      s.build.latency = s'.build.latency ∧ s.build ≠ s'.build := by
  refine ⟨threeStage, stateOf [1, 2, 3] [false, false, false], by decide, by decide, .inl rfl, .inl rfl, threeStage_empty, ?_,
    by decide, by decide⟩
  exact threeStage_empty

theorem witness_OutcomeDependsOnTheOperandAlone :
    State.reset.wellFormed = true ∧ threeStage.wellFormed = true ∧ State.reset.Meaningful ∧ threeStage.Meaningful ∧
    (List.replicate 8 (Instr.idle 0#256)).length = State.reset.build.latency ∧
    (List.replicate 3 (Instr.fmsb 5#256)).length = threeStage.build.latency ∧
    (List.replicate 8 (Instr.idle 0#256)).dropLast.any Instr.isReset = false ∧
    (List.replicate 3 (Instr.fmsb 5#256)).dropLast.any Instr.isReset = false :=
  ⟨by decide, by decide, reset_meaningful, .inl rfl, by decide, by decide, by decide, by decide⟩

theorem witness_PseudoInstructionsExpand : State.reset.wellFormed = true ∧ State.reset.Meaningful :=
  ⟨by decide, reset_meaningful⟩

theorem witness_OperandsOf256BitsOnly : (AsmValue.powerLessOne 256).eval < 2 ^ 256 ∧ 2 ^ 256 ≤ (AsmValue.power 256).eval := by
  decide

end Sys2Proof.Tests
end

section
/-! The legal builds, and what no step changes (00_scope.md R10; 10_state.md R17, R30, R31). -/

namespace Sys2Proof.Machine

/-! ## Legal builds -/

theorem ascendingTo8_cons (low c : Nat) (cs : List Nat) :
    ascendingTo8 low (c :: cs) = true ↔ low < c ∧ c ≤ 8 ∧ ascendingTo8 c cs = true := by
  simp [ascendingTo8, and_assoc]

theorem ascendingTo8_bounds {low : Nat} {cs : List Nat} (h : ascendingTo8 low cs = true) :
    ∀ c ∈ cs, low < c ∧ c ≤ 8 := by
  induction cs generalizing low with
  | nil => simp
  | cons d cs ih =>
    obtain ⟨hlow, hd, hcs⟩ := (ascendingTo8_cons low d cs).mp h
    intro c hc
    rcases List.mem_cons.mp hc with rfl | hc
    · exact ⟨hlow, hd⟩
    · obtain ⟨hdc, hc8⟩ := ih hcs c hc
      exact ⟨hlow.trans hdc, hc8⟩

/-- Each member of the list takes one of the places above `low`. -/
theorem ascendingTo8_length_le {low : Nat} {cs : List Nat} (hlow : low ≤ 8) (h : ascendingTo8 low cs = true) :
    low + cs.length ≤ 8 := by
  induction cs generalizing low with
  | nil => simpa using hlow
  | cons c cs ih =>
    obtain ⟨hc, hc8, hcs⟩ := (ascendingTo8_cons low c cs).mp h
    have := ih hc8 hcs
    rw [List.length_cons]
    omega

theorem Build.latency_le_of_wellFormed {b : Build} (h : b.wellFormed = true) : b.latency ≤ 8 := by
  simpa [Build.latency] using ascendingTo8_length_le (Nat.zero_le 8) h

theorem Build.cuts_bounds_of_wellFormed {b : Build} (h : b.wellFormed = true) : ∀ c ∈ b.cuts, 1 ≤ c ∧ c ≤ 8 :=
  ascendingTo8_bounds h

/-! ## The build, the boot mark and the number in flight -/

/-- At most one transaction stands in each register (R30). -/
theorem State.inFlight_le_latency {s : State} (h : s.wellFormed = true) : s.inFlight ≤ s.build.latency := by
  obtain ⟨-, hlen⟩ := s.wellFormed_iff.mp h
  rw [← hlen]
  exact List.countP_le_length

@[simp] theorem State.nextCycle_wellFormed (s : State) : s.nextCycle.wellFormed = s.wellFormed := rfl

/-- Unlike `exec_keeps_wellFormed`, this holds in an ill-formed state too. -/
theorem exec_keeps_build {i : Instr} {s t : State} (h : exec i s = .next t) : t.build = s.build := by
  cases i <;> cases h <;> rfl

/-- A reset edge sets the boot mark, and the other edges leave it as it is. -/
theorem exec_keeps_booted {i : Instr} {s t : State} (h : exec i s = .next t) (hs : s.booted = true) :
    t.booted = true := by
  cases i with
  | reset b v => cases h; exact resetEdge_booted ..
  | fmsb v => cases h; exact hs
  | idle v => cases h; exact hs

theorem exec_of_step_eq_next {s t : State} (h : step s = .next t) : ∃ i, exec i s.nextCycle = .next t := by
  obtain hloop | ⟨i, u, hu, hexec⟩ := step_cases s
  · rw [hloop] at h; cases h
  · rw [hu] at h; cases h
    exact ⟨i, hexec⟩

/-- Settles O41: each step runs one operation, and no operation changes the build, clears the boot mark or breaks the fit of the
registers to the build, which bounds the number in flight. -/
theorem stepKeepsTheBuild : Obligations.StepKeepsTheBuild := by
  unfold Obligations.StepKeepsTheBuild
  refine ⟨fun b hb => ⟨Build.latency_le_of_wellFormed hb, Build.cuts_bounds_of_wellFormed hb⟩, fun s t h => ?_⟩
  obtain ⟨i, hexec⟩ := exec_of_step_eq_next h
  refine ⟨exec_keeps_build (s := s.nextCycle) hexec, exec_keeps_booted (s := s.nextCycle) hexec, fun hs => ?_⟩
  rw [← s.nextCycle_wellFormed] at hs
  obtain ⟨ht, -⟩ := exec_keeps_wellFormed hs hexec
  exact State.inFlight_le_latency ht

end Sys2Proof.Machine
end

section
/-! Sound states and the values the spec leaves open (10_state.md R20, R28 to R32): what a reset edge leaves behind, the genuine
partial computation in every valid register, and that no free value reaches a reading. -/

namespace Sys2Proof.Machine

/-! ## Edges -/

/-- Every operation is one edge under its own sample: a reset edge for RESET, an edge with `rst = 0` for the others. -/
theorem exec_is_edge (i : Instr) :
    ∃ smp, (∀ s, exec i s = .next (clockEdge smp s)) ∨ ∀ s, exec i s = .next (resetEdge smp s) := by
  cases i with
  | reset b v => exact ⟨resetSample b v, .inr (exec_reset b v)⟩
  | fmsb v => exact ⟨fmsbSample v, .inl (exec_fmsb v)⟩
  | idle v => exact ⟨idleSample v, .inl (exec_idle v)⟩

theorem clockEdge_sameSetting (smp : Sample) (s : State) : s.SameSetting (clockEdge smp s) := ⟨rfl, rfl, rfl⟩

theorem clockEdge_regs_length_of_not_booted {s : State} (h : s.booted = false) (smp : Sample) :
    (clockEdge smp s).regs.length = s.build.latency := by
  rw [clockEdge_regs_of_not_booted h, List.length_map, List.length_range']

theorem resetEdge_empty (smp : Sample) (s : State) : (resetEdge smp s).Empty := by
  intro p hp
  rw [resetEdge_regs] at hp
  obtain ⟨k, -, rfl⟩ := List.mem_map.mp hp
  exact Reg.bubble_valid s.draw k

theorem State.reset_eq_resetEdge :
    State.reset = resetEdge (resetSample false 0#256) (State.powerUp Build.reference) := rfl

theorem State.reset_empty : State.reset.Empty := by
  rw [State.reset_eq_resetEdge]
  exact resetEdge_empty _ _

theorem State.reset_wellFormed : State.reset.wellFormed = true := by decide

theorem State.powerUp_wellFormed {b : Build} (h : b.wellFormed = true) : (State.powerUp b).wellFormed = true := by
  rw [State.wellFormed_iff]
  exact ⟨h, by simp [State.powerUp]⟩

/-! ## The last register -/

theorem State.exists_last {s : State} (h : s.wellFormed = true) (hL : 1 ≤ s.build.latency) :
    ∃ c p, s.build.cuts.getLast? = some c ∧ s.regs.getLast? = some p := by
  obtain ⟨-, hlen⟩ := s.wellFormed_iff.mp h
  have hc : s.build.cuts ≠ [] := List.ne_nil_of_length_pos hL
  have hp : s.regs ≠ [] := List.ne_nil_of_length_pos (by omega)
  exact ⟨_, _, List.getLast?_eq_some_getLast hc, List.getLast?_eq_some_getLast hp⟩

/-- A cycle that starts with no transaction in flight shows no result when LATENCY >= 1. -/
theorem outputs_valid_of_empty {s : State} (h : s.wellFormed = true) (hL : 1 ≤ s.build.latency) (hb : s.booted = true)
    (he : s.Empty) (smp : Sample) : (outputs s smp).valid = false := by
  obtain ⟨c, p, hc, hp⟩ := State.exists_last h hL
  rw [outputs_of_latency_pos hL, registeredOutputs_eq hb hc hp, assembleOutputs_valid]
  exact he p (List.mem_of_getLast? hp)

/-! ## Soundness -/

/-- `STAGES(a, c)` is `STAGES(b + 1, c)` after `STAGES(a, b)`; either half may be the identity (R86). -/
theorem stages_stages {a b c : Nat} (hab : a ≤ b + 1) (hbc : b ≤ c) (x : Work) :
    stages (b + 1) c (stages a b x) = stages a c x := by
  induction c, hbc using Nat.le_induction with
  | base => rw [stages_of_lt (Nat.lt_succ_self b)]
  | succ c hbc ih => rw [stages_snoc (by omega), ih, stages_snoc (by omega)]

theorem ascendingTo8_lt_succ {low k c c' : Nat} {cs : List Nat} (h : ascendingTo8 low cs = true)
    (hc : cs[k]? = some c) (hc' : cs[k + 1]? = some c') : c < c' := by
  induction cs generalizing low k with
  | nil => simp at hc
  | cons d cs ih =>
    obtain ⟨-, -, hcs⟩ := (ascendingTo8_cons low d cs).mp h
    rw [List.getElem?_cons_succ] at hc'
    cases k with
    | zero =>
      obtain rfl : d = c := by simpa using hc
      exact (ascendingTo8_bounds hcs c' (List.mem_of_getElem? hc')).1
    | succ k => exact ih hcs (by simpa using hc) hc'

/-- The sample on the ports is its own operand's computation before stage 1. -/
theorem entering_carries (smp : Sample) : (entering smp).carries 0 smp.v := ⟨rfl, rfl⟩

/-- The stages between two registers take a computation from the first cut on to the second. -/
theorem loaded_carries {p : Reg} {c c' : Nat} {v : Operand} (hv : p.valid = true) (hp : p.carries c v) (hcc : c ≤ c')
    (n k : Nat) : (loaded n k (c + 1) c' p).carries c' v := by
  obtain ⟨hw, hz⟩ := hp
  rw [loaded_of_valid hv]
  refine ⟨?_, hz⟩
  rw [hw]
  exact stages_stages (by omega) hcc _

theorem State.Sound.of_empty {s : State} (h : s.wellFormed = true) (he : s.Empty) : s.Sound := by
  refine ⟨h, fun _ k c p _ hp hv => ?_⟩
  rw [he p (List.mem_of_getElem? hp)] at hv
  cases hv

theorem State.Sound.of_not_booted {s : State} (h : s.wellFormed = true) (hb : s.booted = false) : s.Sound :=
  ⟨h, fun ht => by rw [hb] at ht; cases ht⟩

/-- A register is loaded from the ports (`P[1]`) or from the register before it, and both carry a genuine computation. -/
theorem clockEdge_carries {s : State} {smp : Sample} {k c : Nat} {q : Reg} (hs : s.Sound) (hb : s.booted = true)
    (hc : s.build.cuts[k]? = some c) (hq : (clockEdge smp s).regs[k]? = some q) (hv : q.valid = true) :
    ∃ v, q.carries c v := by
  obtain ⟨hwf, hregs⟩ := hs
  obtain ⟨hbuild, hlen⟩ := s.wellFormed_iff.mp hwf
  rw [clockEdge_regs_of_booted hb] at hq
  cases k with
  | zero =>
    rw [← List.head?_eq_getElem?] at hc hq
    rw [shiftFrom_head? hc hlen] at hq
    cases hq
    rw [loaded_valid] at hv
    exact ⟨_, loaded_carries hv (entering_carries smp) (Nat.zero_le c) _ _⟩
  | succ k =>
    have hk : k + 1 < s.build.cuts.length := (List.getElem?_eq_some_iff.mp hc).1
    obtain ⟨d, hd⟩ : ∃ d, s.build.cuts[k]? = some d := ⟨_, List.getElem?_eq_getElem (by omega)⟩
    obtain ⟨p, hp⟩ : ∃ p, s.regs[k]? = some p :=
      ⟨_, List.getElem?_eq_getElem (by rw [hlen, Build.latency]; omega)⟩
    rw [shiftFrom_getElem?_succ hd hc hp hlen] at hq
    cases hq
    rw [loaded_valid] at hv
    obtain ⟨v, hpv⟩ := hregs hb k d p hd hp hv
    exact ⟨v, loaded_carries hv hpv (ascendingTo8_lt_succ hbuild hd hc).le _ _⟩

theorem exec_keeps_sound {i : Instr} {s t : State} (hs : s.Sound) (h : exec i s = .next t) : t.Sound := by
  obtain ⟨hwf, -⟩ := exec_keeps_wellFormed hs.1 h
  obtain ⟨smp, hedge | hedge⟩ := exec_is_edge i
  · rw [hedge] at h
    cases h
    exact ⟨hwf, fun hb k c q hc hq hv => clockEdge_carries hs hb hc hq hv⟩
  · rw [hedge] at h
    cases h
    exact .of_empty hwf (resetEdge_empty smp s)

/-! ## Agreement where the spec gives a value -/

theorem RegsAgree.bubbles (n m : Nat) (ks : List Nat) : RegsAgree (ks.map (Reg.bubble n)) (ks.map (Reg.bubble m)) := by
  induction ks with
  | nil => exact .nil
  | cons k ks ih => exact RegsAgree.cons_iff.mpr ⟨⟨rfl, nofun⟩, ih⟩

theorem RegsAgree.getLast? {ps qs : List Reg} {p q : Reg} (h : RegsAgree ps qs) (hp : ps.getLast? = some p)
    (hq : qs.getLast? = some q) : p.Agrees q := by
  obtain ⟨hlen, hget⟩ := h
  rw [List.getLast?_eq_getElem?] at hp hq
  exact hget _ p q hp (hlen ▸ hq)

/-- The transfer of R93 takes registers that agree to registers that agree, whichever draws fill the bubbles. -/
theorem shiftFrom_agrees {src src' : Reg} {ps qs : List Reg} (hsrc : src.Agrees src') (h : RegsAgree ps qs)
    (n m k cut : Nat) (cs : List Nat) :
    RegsAgree (shiftFrom n k cut src cs ps) (shiftFrom m k cut src' cs qs) := by
  induction cs generalizing k cut src src' ps qs with
  | nil => exact .nil
  | cons c cs ih =>
    match ps, qs with
    | [], [] => exact .nil
    | p :: ps, q :: qs =>
      obtain ⟨hpq, htail⟩ := RegsAgree.cons_iff.mp h
      exact RegsAgree.cons_iff.mpr ⟨loaded_agrees hsrc n m k (cut + 1) c, ih hpq htail (k + 1) c⟩
    | [], _ :: _ => cases h.1
    | _ :: _, [] => cases h.1

theorem clockEdge_agrees {s s' : State} (h : s.Agrees s') (smp : Sample) :
    (clockEdge smp s).Agrees (clockEdge smp s') := by
  obtain ⟨hbuild, hinput, hbooted, -, hregs⟩ := h
  cases hb : s.booted with
  | true =>
    have hagree : RegsAgree (clockEdge smp s).regs (clockEdge smp s').regs := by
      rw [clockEdge_regs_of_booted hb, clockEdge_regs_of_booted (hbooted.trans hb), hbuild]
      exact shiftFrom_agrees (.refl _) (hregs hb) ..
    exact ⟨hbuild, hinput, hbooted, hagree.1, fun _ => hagree⟩
  | false =>
    refine ⟨hbuild, hinput, hbooted, ?_, fun ht => ?_⟩
    · rw [clockEdge_regs_length_of_not_booted hb, clockEdge_regs_length_of_not_booted (hbooted.trans hb), hbuild]
    · rw [clockEdge_booted, hb] at ht
      cases ht

theorem resetEdge_agrees {s s' : State} (h : s.Agrees s') (smp : Sample) :
    (resetEdge smp s).Agrees (resetEdge smp s') := by
  obtain ⟨hbuild, hinput, -, -, -⟩ := h
  have hagree : RegsAgree (resetEdge smp s).regs (resetEdge smp s').regs := by
    rw [resetEdge_regs, resetEdge_regs, hbuild]
    exact .bubbles ..
  exact ⟨hbuild, hinput, rfl, hagree.1, fun _ => hagree⟩

/-- Assembled outputs read the same whatever the number of the draw and whatever stands beside a valid bit of 0. -/
theorem assembleOutputs_agrees {n m : Nat} {b z z' : Bool} {r r' : Result} (h : b = true → z = z' ∧ r = r') :
    (assembleOutputs n b z r).Agrees (assembleOutputs m b z' r') := by
  rw [OutPorts.Agrees, assembleOutputs_outcome, assembleOutputs_outcome, assembleOutputs_leadingZeros,
    assembleOutputs_leadingZeros]
  cases b with
  | false => exact ⟨rfl, rfl⟩
  | true =>
    obtain ⟨rfl, rfl⟩ := h rfl
    exact ⟨rfl, rfl⟩

theorem registeredOutputs_agrees {s s' : State} (hwf : s.wellFormed = true) (hL : 1 ≤ s.build.latency)
    (hb : s.booted = true) (h : s.Agrees s') : (registeredOutputs s).Agrees (registeredOutputs s') := by
  obtain ⟨hbuild, -, hbooted, hlen, hregs⟩ := h
  have hwf' : s'.wellFormed = true := by
    rw [State.wellFormed_iff] at hwf ⊢
    rwa [hbuild, ← hlen]
  obtain ⟨c, p, hc, hp⟩ := State.exists_last hwf hL
  obtain ⟨c', q, hc', hq⟩ := State.exists_last hwf' (hbuild ▸ hL)
  obtain rfl : c = c' := by
    rw [hbuild, hc] at hc'
    exact Option.some.inj hc'
  obtain ⟨hvalid, hdata⟩ := (hregs hb).getLast? hp hq
  rw [registeredOutputs_eq hb hc hp, registeredOutputs_eq (hbooted.trans hb) hc' hq, ← hvalid]
  refine assembleOutputs_agrees fun hv => ?_
  rw [hdata hv]
  exact ⟨rfl, rfl⟩

theorem outputs_agrees {s s' : State} (hwf : s.wellFormed = true) (h : s.Agrees s') (hm : s.Meaningful) (smp : Sample) :
    (outputs s smp).Agrees (outputs s' smp) := by
  have hbuild : s'.build = s.build := h.1
  by_cases hL : s.build.latency = 0
  · rw [outputs_of_latency_zero hL, outputs_of_latency_zero (hbuild ▸ hL)]
    exact assembleOutputs_agrees fun _ => ⟨rfl, rfl⟩
  · have hL1 : 1 ≤ s.build.latency := Nat.one_le_iff_ne_zero.mpr hL
    rw [outputs_of_latency_pos hL1, outputs_of_latency_pos (hbuild ▸ hL1)]
    exact registeredOutputs_agrees hwf hL1 (hm.resolve_right hL) h

/-! ## The obligations -/

/-- Settles O39: a register is loaded from a genuine partial computation through exactly the stages between, and the stages of
the two parts compose. -/
theorem stepKeepsSoundness : Obligations.StepKeepsSoundness := by
  unfold Obligations.StepKeepsSoundness
  intro s t hs h
  obtain ⟨i, hexec⟩ := exec_of_step_eq_next h
  have hnext : s.nextCycle.Sound := hs
  exact exec_keeps_sound hnext hexec

/-- Settles O49: each operation is one edge, and both kinds of edge, and the outputs of the cycle, take states that agree to
results that agree. -/
theorem freeValuesReachNoReading : Obligations.FreeValuesReachNoReading := by
  unfold Obligations.FreeValuesReachNoReading
  intro i s s' hwf h
  obtain ⟨smp, hedge | hedge⟩ := exec_is_edge i
  · exact ⟨_, _, hedge s, hedge s', clockEdge_agrees h smp, fun hm => outputs_agrees hwf h hm smp⟩
  · exact ⟨_, _, hedge s, hedge s', resetEdge_agrees h smp, fun hm => outputs_agrees hwf h hm smp⟩

/-- Settles O29: before the first reset edge an edge with `rst = 0` draws LATENCY registers afresh. -/
theorem operationsBeforeTheFirstReset : Obligations.OperationsBeforeTheFirstReset := by
  unfold Obligations.OperationsBeforeTheFirstReset
  intro v s hb _
  exact ⟨⟨_, exec_fmsb v s, clockEdge_regs_length_of_not_booted hb _, clockEdge_sameSetting _ s⟩,
    ⟨_, exec_idle v s, clockEdge_regs_length_of_not_booted hb _, clockEdge_sameSetting _ s⟩⟩

/-- Settles O34: a reset edge leaves every register invalid, and a cycle that starts so shows no result. -/
theorem resetStateIsAResetEdgeAfterPowerUp : Obligations.ResetStateIsAResetEdgeAfterPowerUp := by
  unfold Obligations.ResetStateIsAResetEdgeAfterPowerUp
  refine ⟨?_, rfl, rfl, State.reset_empty, rfl, fun smp => ?_⟩
  · rw [exec_reset, State.reset_eq_resetEdge]
  · exact outputs_valid_of_empty State.reset_wellFormed (by decide) rfl State.reset_empty smp

/-- Settles O40: nothing is in flight after a reset edge, and nothing is claimed of the registers at power-up. -/
theorem resetAndPowerUpAreSound : Obligations.ResetAndPowerUpAreSound := by
  unfold Obligations.ResetAndPowerUpAreSound
  exact ⟨.of_empty State.reset_wellFormed State.reset_empty,
    fun b hb => .of_not_booted (State.powerUp_wellFormed hb) rfl⟩

end Sys2Proof.Machine
end

section
/-! Whole runs (20_memory.md R42; 70_reset_and_hazards.md R113, R116): a transaction moves one register on at each edge, so the
outputs show it exactly LATENCY cycles after its own, and every other slot of the pipeline reads as no result. -/

namespace Sys2Proof.Machine

/-! ## Operations and their edges -/

/-- The input sample that an operation puts on the ports. -/
def sampleOf : Instr → Sample
  | .reset inValid v => resetSample inValid v
  | .fmsb v => fmsbSample v
  | .idle v => idleSample v

/-- The operand that an operation brings into the pipeline: only an FMSB is accepted (R58, R70, R71). -/
def acceptedOperand : Instr → Option Operand
  | .reset _ _ => none
  | .fmsb v => some v
  | .idle _ => none

theorem exec_of_isReset {i : Instr} (h : i.isReset = true) (s : State) :
    exec i s = .next (resetEdge (sampleOf i) s) := by
  cases i with
  | reset b v => rfl
  | fmsb v => cases h
  | idle v => cases h

theorem exec_of_not_isReset {i : Instr} (h : i.isReset = false) (s : State) :
    exec i s = .next (clockEdge (sampleOf i) s) := by
  cases i with
  | reset b v => cases h
  | fmsb v => rfl
  | idle v => rfl

theorem acceptedOperand_of_isReset {i : Instr} (h : i.isReset = true) : acceptedOperand i = none := by
  cases i with
  | reset b v => rfl
  | fmsb v => cases h
  | idle v => cases h

theorem exec_out {i : Instr} {s t : State} (h : exec i s = .next t) : t.out = outputs s (sampleOf i) := by
  cases i <;> cases h <;> rfl

theorem State.Meaningful.booted {s : State} (h : s.Meaningful) (hL : 1 ≤ s.build.latency) : s.booted = true :=
  h.resolve_right (Nat.one_le_iff_ne_zero.mp hL)

theorem exec_keeps_meaningful {i : Instr} {s t : State} (hs : s.Meaningful) (h : exec i s = .next t) : t.Meaningful :=
  hs.imp (exec_keeps_booted h) (fun hL => by rw [exec_keeps_build h, hL])

/-- The outcome of an operation is that of its accepted operand, unless a RESET came in between (R113). -/
theorem resultOf_eq (i : Instr) (between : List Instr) :
    resultOf i between = (if between.any Instr.isReset then none else acceptedOperand i).map findMsb := by
  cases i with
  | reset b v => cases between.any Instr.isReset <;> rfl
  | fmsb v => simp only [resultOf, acceptedOperand, apply_ite (Option.map findMsb), Option.map_none, Option.map_some]
  | idle v => cases between.any Instr.isReset <;> rfl

/-! ## What the outputs deliver -/

/-- The contract in one equation: the zero detector, else the accumulator of the cascade (R58, R86). -/
theorem findMsb_eq_stages (v : Operand) :
    findMsb v = if zeroDetect v then .error .invalidInput else .ok (stages 1 8 (Work.start v)).r := rfl

/-- The ports of a cycle read as the outcome `x`, with the leading-zero count that goes with it (R54, R68). -/
def OutPorts.Delivers (o : OutPorts) (x : Option (Except DomainError Result)) : Prop :=
  o.outcome = x ∧ o.leadingZeros = leadingZerosOf x

theorem assembleOutputs_delivers_none (n : Nat) (z : Bool) (r : Result) :
    (assembleOutputs n false z r).Delivers none := by
  rw [OutPorts.Delivers, assembleOutputs_outcome, assembleOutputs_leadingZeros]
  exact ⟨rfl, rfl⟩

theorem lzcOf_eq_sub (r : Result) : lzcOf r = 255#8 - r := (BitVec.allOnes_sub_eq_not r).symm

theorem assembleOutputs_delivers_findMsb (n : Nat) (v : Operand) :
    (assembleOutputs n true (zeroDetect v) (stages 1 8 (Work.start v)).r).Delivers (some (findMsb v)) := by
  rw [OutPorts.Delivers, assembleOutputs_outcome, assembleOutputs_leadingZeros, findMsb_eq_stages]
  cases zeroDetect v with
  | true => exact ⟨rfl, rfl⟩
  | false => exact ⟨rfl, congrArg some (lzcOf_eq_sub _)⟩

/-- With LATENCY = 0 an operation delivers its own outcome in its own cycle (R94). -/
theorem exec_delivers_of_latency_zero {i : Instr} {s t : State} (hL : s.build.latency = 0) (h : exec i s = .next t) :
    t.out.Delivers (resultOf i []) := by
  rw [exec_out h, outputs_of_latency_zero hL, combinationalOutputs]
  cases i with
  | reset b v =>
    simp only [sampleOf, resetSample, Bool.not_true, Bool.and_false]
    exact assembleOutputs_delivers_none ..
  | fmsb v => exact assembleOutputs_delivers_findMsb ..
  | idle v => exact assembleOutputs_delivers_none ..

/-! ## What a register holds -/

/-- The register after stage `c` holds the transaction with operand `v`, or none. -/
def Reg.Holds (p : Reg) (c : Nat) : Option Operand → Prop
  | none => p.valid = false
  | some v => p.valid = true ∧ p.carries c v

/-- The register at place `k` of the pipeline, which is `P[k + 1]`, holds the transaction with that operand, or none. -/
def State.HoldsAt (s : State) (k : Nat) (o : Option Operand) : Prop :=
  ∃ c p, s.build.cuts[k]? = some c ∧ s.regs[k]? = some p ∧ p.Holds c o

theorem loaded_holds {p : Reg} {c c' : Nat} {o : Option Operand} (hp : p.Holds c o) (hcc : c ≤ c') (n k : Nat) :
    (loaded n k (c + 1) c' p).Holds c' o := by
  cases o with
  | none => exact (loaded_valid ..).trans hp
  | some v =>
    obtain ⟨hv, hcarries⟩ := hp
    exact ⟨(loaded_valid ..).trans hv, loaded_carries hv hcarries hcc n k⟩

theorem entering_holds {i : Instr} (h : i.isReset = false) :
    (entering (sampleOf i)).Holds 0 (acceptedOperand i) := by
  cases i with
  | reset b v => cases h
  | fmsb v => exact ⟨rfl, entering_carries _⟩
  | idle v => rfl

theorem State.exists_at {s : State} (hs : s.wellFormed = true) {k : Nat} (hk : k < s.build.latency) :
    ∃ c p, s.build.cuts[k]? = some c ∧ s.regs[k]? = some p := by
  obtain ⟨-, hlen⟩ := s.wellFormed_iff.mp hs
  exact ⟨_, _, List.getElem?_eq_getElem hk, List.getElem?_eq_getElem (hlen.symm ▸ hk)⟩

theorem State.Empty.holdsAt_none {s : State} (he : s.Empty) (hs : s.wellFormed = true) {k : Nat}
    (hk : k < s.build.latency) : s.HoldsAt k none := by
  obtain ⟨c, p, hc, hp⟩ := State.exists_at hs hk
  exact ⟨c, p, hc, hp, he p (List.mem_of_getElem? hp)⟩

theorem exec_holdsAt_none_of_isReset {i : Instr} {s t : State} (hs : s.wellFormed = true) (hi : i.isReset = true)
    (h : exec i s = .next t) {k : Nat} (hk : k < s.build.latency) : t.HoldsAt k none := by
  obtain ⟨ht, hbuild⟩ := exec_keeps_wellFormed hs h
  rw [exec_of_isReset hi] at h
  cases h
  exact (resetEdge_empty _ s).holdsAt_none ht (hbuild ▸ hk)

/-- `P[1]` takes what the operation brings in (R93). -/
theorem exec_enters {i : Instr} {s t : State} (hs : s.wellFormed = true) (hb : s.booted = true)
    (hL : 1 ≤ s.build.latency) (h : exec i s = .next t) : t.HoldsAt 0 (acceptedOperand i) := by
  cases hi : i.isReset with
  | true =>
    rw [acceptedOperand_of_isReset hi]
    exact exec_holdsAt_none_of_isReset hs hi h hL
  | false =>
    rw [exec_of_not_isReset hi] at h
    cases h
    obtain ⟨-, hlen⟩ := s.wellFormed_iff.mp hs
    obtain ⟨c, -, hc, -⟩ := State.exists_at hs hL
    refine ⟨c, _, hc, ?_, loaded_holds (entering_holds hi) (Nat.zero_le c) s.draw 1⟩
    rw [clockEdge_regs_of_booted hb, ← List.head?_eq_getElem?]
    exact shiftFrom_head? (List.head?_eq_getElem?.trans hc) hlen

/-- Every later register takes what stood in the one before it, and a reset edge discards it (R93, R113). -/
theorem exec_advances {i : Instr} {s t : State} {k : Nat} {o : Option Operand} (hs : s.wellFormed = true)
    (hb : s.booted = true) (hk : k + 1 < s.build.latency) (ho : s.HoldsAt k o) (h : exec i s = .next t) :
    t.HoldsAt (k + 1) (if i.isReset then none else o) := by
  cases hi : i.isReset with
  | true => exact exec_holdsAt_none_of_isReset hs hi h hk
  | false =>
    rw [exec_of_not_isReset hi] at h
    cases h
    obtain ⟨hbuild, hlen⟩ := s.wellFormed_iff.mp hs
    obtain ⟨c, p, hc, hp, hpo⟩ := ho
    obtain ⟨c', -, hc', -⟩ := State.exists_at hs hk
    refine ⟨c', _, hc', ?_, loaded_holds hpo (ascendingTo8_lt_succ hbuild hc hc').le s.draw (1 + k + 1)⟩
    rw [clockEdge_regs_of_booted hb]
    exact shiftFrom_getElem?_succ hc hc' hp hlen

/-- The cycle shows what stands in the last register `P[L]`, whatever operation comes at its edge (R92, R93). -/
theorem exec_delivers_last {i : Instr} {s t : State} {k : Nat} {o : Option Operand} (hs : s.wellFormed = true)
    (hb : s.booted = true) (hk : k + 1 = s.build.latency) (ho : s.HoldsAt k o) (h : exec i s = .next t) :
    t.out.Delivers (o.map findMsb) := by
  obtain ⟨hbuild, hlen⟩ := s.wellFormed_iff.mp hs
  obtain ⟨c, p, hc, hp, hpo⟩ := ho
  have hcLast : s.build.cuts.getLast? = some c := by
    rwa [List.getLast?_eq_getElem?, ← Build.latency, ← hk, Nat.add_sub_cancel]
  have hpLast : s.regs.getLast? = some p := by
    rwa [List.getLast?_eq_getElem?, hlen, ← hk, Nat.add_sub_cancel]
  rw [exec_out h, outputs_of_latency_pos (hk ▸ Nat.le_add_left 1 k), registeredOutputs_eq hb hcLast hpLast]
  cases o with
  | none =>
    rw [show p.valid = false from hpo]
    exact assembleOutputs_delivers_none ..
  | some v =>
    obtain ⟨hv, hw, hz⟩ := hpo
    have hc8 : c ≤ 8 := (Build.cuts_bounds_of_wellFormed hbuild c (List.mem_of_getElem? hc)).2
    rw [hv, hz, hw, stages_stages (Nat.le_add_left 1 c) hc8]
    exact assembleOutputs_delivers_findMsb ..

/-! ## Runs -/

theorem runAll_cons {i : Instr} {s t : State} (h : exec i s = .next t) (is : List Instr) :
    runAll (i :: is) s = runAll is t := by
  rw [runAll, h]

theorem outputTrace_cons {i : Instr} {s t : State} (h : exec i s = .next t) (is : List Instr) :
    outputTrace (i :: is) s = t.out :: outputTrace is t := by
  rw [outputTrace, h]

/-- A run completes, in a state as fit and as meaningful as before, of the same build. -/
theorem runAll_completes {s : State} (hs : s.wellFormed = true) (hm : s.Meaningful) (is : List Instr) :
    ∃ t, runAll is s = some t ∧ t.wellFormed = true ∧ t.Meaningful ∧ t.build = s.build := by
  induction is generalizing s with
  | nil => exact ⟨s, rfl, hs, hm, rfl⟩
  | cons i is ih =>
    obtain ⟨u, hu⟩ := exec_completes i s
    obtain ⟨huwf, hubuild⟩ := exec_keeps_wellFormed hs hu
    obtain ⟨t, ht, htwf, htm, htbuild⟩ := ih huwf (exec_keeps_meaningful hm hu)
    exact ⟨t, (runAll_cons hu is).trans ht, htwf, htm, htbuild.trans hubuild⟩

theorem runAll_append {s u : State} {is : List Instr} (h : runAll is s = some u) (js : List Instr) :
    runAll (is ++ js) s = runAll js u := by
  induction is generalizing s with
  | nil => cases h; rfl
  | cons i is ih =>
    obtain ⟨t, ht⟩ := exec_completes i s
    rw [runAll_cons ht] at h
    rw [List.cons_append, runAll_cons ht, ih h]

theorem outputTrace_length (is : List Instr) (s : State) : (outputTrace is s).length = is.length := by
  induction is generalizing s with
  | nil => rfl
  | cons i is ih =>
    obtain ⟨t, ht⟩ := exec_completes i s
    rw [outputTrace_cons ht, List.length_cons, List.length_cons, ih]

/-- Cycle `n` of a run shows the ports that the state after `n + 1` operations holds. -/
theorem outputTrace_getElem? {is : List Instr} {s t : State} {n : Nat} (hn : n < is.length)
    (h : runAll (is.take (n + 1)) s = some t) : (outputTrace is s)[n]? = some t.out := by
  induction is generalizing s n with
  | nil => cases hn
  | cons i is ih =>
    obtain ⟨u, hu⟩ := exec_completes i s
    rw [List.take_succ_cons, runAll_cons hu] at h
    rw [outputTrace_cons hu]
    cases n with
    | zero => cases h; rfl
    | succ n => exact ih (Nat.lt_of_succ_lt_succ hn) h

/-- What stands in a register is on the outputs after as many operations as there are registers from it on, unless one of them
but the last is a RESET (R113): each but the last moves it one register on, and the last shows it. -/
theorem runAll_delivers_held {is : List Instr} {s t : State} {k : Nat} {o : Option Operand} (hs : s.wellFormed = true)
    (hb : s.booted = true) (hk : k < s.build.latency) (hlen : k + is.length = s.build.latency) (ho : s.HoldsAt k o)
    (h : runAll is s = some t) :
    t.out.Delivers ((if is.dropLast.any Instr.isReset then none else o).map findMsb) := by
  induction is generalizing s k o with
  | nil => exact absurd hlen hk.ne
  | cons i js ih =>
    obtain ⟨u, hu⟩ := exec_completes i s
    rw [runAll_cons hu] at h
    cases js with
    | nil =>
      cases h
      exact exec_delivers_last hs hb hlen ho hu
    | cons j js =>
      obtain ⟨huwf, hubuild⟩ := exec_keeps_wellFormed hs hu
      have hk' : k + 1 < s.build.latency := by simp only [List.length_cons] at hlen; omega
      have hlen' : k + 1 + (j :: js).length = u.build.latency := by
        rw [hubuild, ← hlen, List.length_cons (a := i)]; omega
      have hdelivers := ih huwf (exec_keeps_booted hu hb) (hubuild ▸ hk') hlen' (exec_advances hs hb hk' ho hu) h
      rw [List.dropLast_cons_cons, List.any_cons]
      cases hi : i.isReset <;> simpa [hi] using hdelivers

/-- The operation of one cycle decides what the outputs show exactly LATENCY cycles later (R116), whatever the block held. -/
theorem runAll_delivers_resultOf {i : Instr} {is : List Instr} {s t : State} (hs : s.wellFormed = true)
    (hm : s.Meaningful) (hlen : is.length = s.build.latency) (h : runAll (i :: is) s = some t) :
    t.out.Delivers (resultOf i is.dropLast) := by
  obtain ⟨u, hu⟩ := exec_completes i s
  rw [runAll_cons hu] at h
  obtain hL | hL := Nat.eq_zero_or_pos s.build.latency
  · obtain rfl := List.length_eq_zero_iff.mp (hlen.trans hL)
    cases h
    exact exec_delivers_of_latency_zero hL hu
  · have hb := hm.booted hL
    obtain ⟨huwf, hubuild⟩ := exec_keeps_wellFormed hs hu
    rw [resultOf_eq]
    exact runAll_delivers_held huwf (exec_keeps_booted hu hb) (hubuild ▸ hL) (by rw [hubuild, Nat.zero_add, hlen])
      (exec_enters hs hb hL hu) h

/-! ## Runs from an empty pipeline -/

/-- Before the first result can appear, what reaches the outputs is what the empty registers held. -/
theorem readings_of_lt_latency {is : List Instr} {s : State} {n : Nat} (hs : s.wellFormed = true) (hm : s.Meaningful)
    (he : s.Empty) (hn : n < is.length) (hL : n < s.build.latency) : (readings is s)[n]? = some none := by
  obtain ⟨t, ht, -⟩ := runAll_completes hs hm (is.take (n + 1))
  have hlen : (is.take (n + 1)).length = n + 1 := List.length_take_of_le hn
  have hk : s.build.latency - (n + 1) < s.build.latency := by omega
  obtain ⟨hout, -⟩ := runAll_delivers_held hs (hm.booted (by omega)) hk (by omega) (he.holdsAt_none hs hk) ht
  rw [readings, List.getElem?_map, outputTrace_getElem? hn ht, Option.map_some, hout, ite_self, Option.map_none]

/-- Later on, the outputs show the operation that came LATENCY cycles before, run from the state it found. -/
theorem readings_of_latency_le {is : List Instr} {s : State} {m : Nat} {i : Instr} (hs : s.wellFormed = true)
    (hm : s.Meaningful) (hn : m + s.build.latency < is.length) (hi : is[m]? = some i) :
    (readings is s)[m + s.build.latency]? =
      some (resultOf i ((is.drop (m + 1)).take (s.build.latency - 1))) := by
  obtain ⟨u, hu, huwf, hum, hubuild⟩ := runAll_completes hs hm (is.take m)
  obtain ⟨t, ht, -⟩ := runAll_completes huwf hum (i :: (is.drop (m + 1)).take s.build.latency)
  have hlen : ((is.drop (m + 1)).take s.build.latency).length = s.build.latency :=
    List.length_take_of_le (by rw [List.length_drop]; omega)
  have hsplit : is.take (m + s.build.latency + 1) = is.take m ++ i :: (is.drop (m + 1)).take s.build.latency := by
    rw [Nat.add_assoc, List.take_add, List.drop_eq_getElem?_toList_append, hi, Option.toList_some,
      List.singleton_append, List.take_succ_cons]
  have hrun : runAll (is.take (m + s.build.latency + 1)) s = some t := by
    rw [hsplit, runAll_append hu, ht]
  obtain ⟨hout, -⟩ := runAll_delivers_resultOf huwf hum (hlen.trans (by rw [hubuild])) ht
  rw [readings, List.getElem?_map, outputTrace_getElem? hn hrun, Option.map_some, hout, List.dropLast_eq_take, hlen,
    List.take_take, Nat.min_eq_left (Nat.sub_le ..)]

/-- Settles O43: before cycle LATENCY the outputs show what the empty registers held, and from then on the operation that came
LATENCY cycles before, whatever state it found. -/
theorem runDeliversResultsInOrder : Obligations.RunDeliversResultsInOrder := by
  unfold Obligations.RunDeliversResultsInOrder
  intro s is hs hm he
  refine ⟨by rw [readings, List.length_map, outputTrace_length], fun n hn => ?_⟩
  split
  case isTrue hL => exact readings_of_lt_latency hs hm he hn hL
  case isFalse hL =>
    obtain ⟨m, rfl⟩ := Nat.exists_eq_add_of_le' (Nat.le_of_not_lt hL)
    have hi := List.getElem?_eq_getElem (show m < is.length by omega)
    rw [Nat.add_sub_cancel, hi, Option.map_some]
    exact readings_of_latency_le hs hm hn hi

end Sys2Proof.Machine
end

section
/-! Words and their fields (30_encoding.md R48 to R53): every input word is put together from `rst`, `in_valid` and `v`, and
what the decoder and the opcode table answer is read off these three. -/

namespace Sys2Proof

/-! ## Input words -/

theorem exists_eq_append (w : InWord) :
    ∃ (rst inValid : Bool) (v : Operand), w = BitVec.ofBool rst ++ BitVec.ofBool inValid ++ v :=
  ⟨_, _, _, (inWord_eq_append w).symm⟩

theorem decode_append (rst inValid : Bool) (v : Operand) :
    decode (BitVec.ofBool rst ++ BitVec.ofBool inValid ++ v : InWord) =
      if rst then .reset inValid v else if inValid then .fmsb v else .idle v := by
  simp only [decode, operandField_append, inWord_getLsbD]
  rfl

theorem decode_encode (i : Instr) : decode (encode i) = i := by
  cases i with
  | reset inValid v => exact decode_append true inValid v
  | fmsb v => exact decode_append false true v
  | idle v => exact decode_append false false v

theorem encode_decode (w : InWord) : encode (decode w) = w := by
  obtain ⟨rst, inValid, v, rfl⟩ := exists_eq_append w
  rw [decode_append]
  cases rst with
  | true => rfl
  | false => cases inValid <;> rfl

/-- The operand's width stands in its type, so no instruction is shut out (R52). -/
theorem Instr.wellFormed_eq_true (i : Instr) : i.wellFormed = true := by
  cases i with
  | reset _ v => exact decide_eq_true v.isLt
  | fmsb v => exact decide_eq_true v.isLt
  | idle v => exact decide_eq_true v.isLt

/-- Settles O19: a word is put together from `rst`, `in_valid` and `v`, and these are the constructor and the fields of the
instruction it decodes to. -/
theorem decodeInvertsEncode : Obligations.DecodeInvertsEncode := by
  unfold Obligations.DecodeInvertsEncode
  exact ⟨fun i _ => decode_encode i, fun w => ⟨encode_decode w, (decode w).wellFormed_eq_true⟩⟩

/-! ## The opcode table -/

/-- A row that looks at the control field alone, as every row of the table does (R51). -/
theorem OpcodeRow.matchesWord_append {row : OpcodeRow} {mask value : BitVec 2}
    (hmask : BitVec.ofNat 258 row.maskBits = mask ++ 0#256) (hvalue : BitVec.ofNat 258 row.matchBits = value ++ 0#256)
    (rst inValid : Bool) (v : Operand) :
    row.matchesWord (BitVec.ofBool rst ++ BitVec.ofBool inValid ++ v) =
      ((BitVec.ofBool rst ++ BitVec.ofBool inValid) &&& mask == value) := by
  rw [matchesWord, hmask, hvalue, BitVec.and_append, BitVec.and_zero, Bool.eq_iff_iff, beq_iff_eq, beq_iff_eq]
  exact BitVec.append_left_inj _

/-- A row of the table matches a word exactly when it is the row of the decoded operation. -/
theorem matchesWord_eq_of_mem {row : OpcodeRow} (h : row ∈ opcodeRows) (w : InWord) :
    row.matchesWord w = (row.mnemonic == (decode w).mnemonic) := by
  obtain ⟨rst, inValid, v, rfl⟩ := exists_eq_append w
  rw [decode_append]
  simp only [opcodeRows, List.mem_cons, List.not_mem_nil, or_false] at h
  obtain rfl | rfl | rfl := h
  · rw [OpcodeRow.matchesWord_append (mask := 0b10#2) (value := 0b10#2) (by decide) (by decide)]
    cases rst <;> cases inValid <;> rfl
  · rw [OpcodeRow.matchesWord_append (mask := 0b11#2) (value := 0b01#2) (by decide) (by decide)]
    cases rst <;> cases inValid <;> rfl
  · rw [OpcodeRow.matchesWord_append (mask := 0b11#2) (value := 0b00#2) (by decide) (by decide)]
    cases rst <;> cases inValid <;> rfl

theorem exists_filter_mnemonic (i : Instr) :
    ∃ row, opcodeRows.filter (fun row => row.mnemonic == i.mnemonic) = [row] ∧ row.mnemonic = i.mnemonic := by
  cases i with
  | reset _ _ => exact ⟨_, rfl, rfl⟩
  | fmsb _ => exact ⟨_, rfl, rfl⟩
  | idle _ => exact ⟨_, rfl, rfl⟩

/-- The control field selects the operation, over all four of its values (R51). -/
theorem decode_of_controlField (w : InWord) :
    (controlField w = 0b00#2 → decode w = .idle (operandField w)) ∧
    (controlField w = 0b01#2 → decode w = .fmsb (operandField w)) ∧
    (controlField w = 0b10#2 → decode w = .reset false (operandField w)) ∧
    (controlField w = 0b11#2 → decode w = .reset true (operandField w)) := by
  obtain ⟨rst, inValid, v, rfl⟩ := exists_eq_append w
  rw [decode_append, operandField_append, Laws.Fields.controlField_append]
  cases rst <;> cases inValid <;> simp

/-- Settles O20: the control field is `{rst, in_valid}`, which selects the constructor, and each row of the table tests nothing
else. -/
theorem controlFieldSelectsTheOperation : Obligations.ControlFieldSelectsTheOperation := by
  unfold Obligations.ControlFieldSelectsTheOperation
  intro w
  obtain ⟨hidle, hfmsb, hreset, hresetV⟩ := decode_of_controlField w
  refine ⟨hidle, hfmsb, hreset, hresetV, ?_, rfl⟩
  rw [List.filter_congr fun row h => matchesWord_eq_of_mem h w]
  exact exists_filter_mnemonic (decode w)

/-! ## Numbers -/

/-- A number is an input word exactly when it has no bit above 257 (R48). -/
theorem shiftRight_258_eq_zero_iff (n : Nat) : n >>> 258 = 0 ↔ n < 2 ^ 258 := by
  rw [Nat.shiftRight_eq_div_pow, Nat.div_eq_zero_iff_lt (Nat.two_pow_pos 258)]

/-- Settles O23: shifting out the 258 bits of a word leaves 0 of a number that fits and something of any other. -/
theorem everyInWordDecodes : Obligations.EveryInWordDecodes := by
  unfold Obligations.EveryInWordDecodes
  intro n
  rw [decodeNumber]
  exact ⟨fun h => if_pos ((shiftRight_258_eq_zero_iff n).mpr h),
    fun h => if_neg fun h0 => Nat.not_lt.mpr h ((shiftRight_258_eq_zero_iff n).mp h0)⟩

/-- Settles O24, by evaluating the decoder on each of the five words. -/
theorem writtenOutWordsDecode : Obligations.WrittenOutWordsDecode := by
  unfold Obligations.WrittenOutWordsDecode
  exact ⟨by decide, by decide, by decide, by decide, by decide⟩

namespace Machine

/-! ## Ports -/

theorem Sample.ofWord_append (rst inValid : Bool) (v : Operand) :
    Sample.ofWord (BitVec.ofBool rst ++ BitVec.ofBool inValid ++ v) = ⟨rst, inValid, v⟩ := by
  simp only [Sample.ofWord, operandField_append, inWord_getLsbD]
  rfl

/-- Settles O21: a word put together from its ports has their weights, their bits and their control field. -/
theorem inWordIsItsPortsByWeight : Obligations.InWordIsItsPortsByWeight := by
  unfold Obligations.InWordIsItsPortsByWeight
  intro w
  obtain ⟨rst, inValid, v, rfl⟩ := exists_eq_append w
  rw [Sample.ofWord_append]
  refine ⟨?_, fun i hi => ?_, Laws.Fields.controlField_append rst inValid v⟩
  · rw [inWord_toNat, Nat.add_mul, Nat.mul_assoc, ← Nat.pow_succ']
  · rw [inWord_getLsbD, if_pos hi]

theorem OutPorts.ofWord_toWord (o : OutPorts) : OutPorts.ofWord o.toWord = o := by
  have hlzc : o.toWord.extractLsb' 8 8 = o.lzc := BitVec.eq_of_getLsbD_eq fun i hi => by
    have h8 : ¬ 8 + i < 8 := by omega
    have h16 : 8 + i < 16 := by omega
    rw [BitVec.getLsbD_extractLsb', OutPorts.toWord_getLsbD, if_neg h8, if_pos h16, Nat.add_sub_cancel_left,
      decide_eq_true hi, Bool.true_and]
  have hmsb : o.toWord.extractLsb' 0 8 = o.msb := BitVec.extractLsb'_append_eq_right
  simp only [OutPorts.ofWord, OutPorts.toWord_getLsbD, hlzc, hmsb]
  rfl

theorem OutPorts.toWord_ofWord (w : OutWord) : (OutPorts.ofWord w).toWord = w := by
  apply BitVec.eq_of_getLsbD_eq
  intro i hi
  rw [OutPorts.toWord_getLsbD]
  simp only [OutPorts.ofWord, BitVec.getLsbD_extractLsb']
  split_ifs with h8 h16 h16' h17
  · simp [h8]
  · have : i - 8 < 8 := by omega
    have : 8 + (i - 8) = i := by omega
    simp [*]
  · rw [h16']
  · rw [h17]
  · omega

/-- The fields of an output word by weight (R49). -/
theorem OutPorts.toWord_toNat (o : OutPorts) :
    o.toWord.toNat = o.valid.toNat * 2 ^ 17 + o.err.toNat * 2 ^ 16 + o.lzc.toNat * 2 ^ 8 + o.msb.toNat := by
  rw [OutPorts.toWord, BitVec.toNat_append, BitVec.toNat_append, BitVec.toNat_append,
    ← Nat.shiftLeft_add_eq_or_of_lt o.msb.isLt, ← Nat.shiftLeft_add_eq_or_of_lt o.lzc.isLt,
    ← Nat.shiftLeft_add_eq_or_of_lt (BitVec.isLt _), BitVec.toNat_ofBool, BitVec.toNat_ofBool]
  simp only [Nat.shiftLeft_eq]
  ring

theorem lzcOf_toNat (r : Result) : (lzcOf r).toNat = 255 - r.toNat := BitVec.toNat_not

/-- Settles O22: each port stands at its own bits of the word, and the leading-zero count of a result is its complement. -/
theorem outWordIsItsPortsByWeight : Obligations.OutWordIsItsPortsByWeight := by
  unfold Obligations.OutWordIsItsPortsByWeight
  refine ⟨fun o => ⟨o.ofWord_toWord, o.toWord_toNat⟩, OutPorts.toWord_ofWord, fun n r => ?_⟩
  calc (assembleOutputs n true false r).toWord.toNat
      = 1 * 2 ^ 17 + 0 * 2 ^ 16 + (lzcOf r).toNat * 2 ^ 8 + r.toNat := OutPorts.toWord_toNat _
    _ = 2 ^ 17 + (255 - r.toNat) * 2 ^ 8 + r.toNat := by rw [lzcOf_toNat, one_mul, zero_mul, add_zero]

end Machine

end Sys2Proof
end

section
/-! The step (30_encoding.md R47; 70_reset_and_hazards.md R121): which word stands on the ports, and programs of listed lines. -/

namespace Sys2Proof.Machine

/-! ## The word on the ports -/

theorem step_of_presentedWord {s : State} {w : InWord} (h : presentedWord s = .ok w) :
    step s = exec (decode w) s.nextCycle := by
  rw [step, h]

theorem State.hostLine_of_input_eq_cons {s : State} {d : HostLine} {ds : List HostLine} (h : s.input = d :: ds) :
    s.hostLine = d := by
  rw [State.hostLine, h]

theorem State.hostLine_of_input_eq_nil {s : State} (h : s.input = []) :
    s.hostLine = { word := Config.freeInput s.draw, feedback := [] } := by
  rw [State.hostLine, h]

theorem State.nextCycle_of_input_eq_cons {s : State} {d : HostLine} {ds : List HostLine} (h : s.input = d :: ds) :
    s.nextCycle = { s with input := ds } := by
  rw [State.nextCycle, h, List.tail_cons]

theorem State.nextCycle_of_input_eq_nil {s : State} (h : s.input = []) : s.nextCycle = s := by
  rw [State.nextCycle, h, List.tail_nil, ← h]

theorem presentedWord_of_no_wires {s : State} (h : s.hostLine.feedback = []) :
    presentedWord s = .ok s.hostLine.word := by
  simp [presentedWord, h]

/-- A line without wires is completed to itself. -/
theorem presentedWord_of_latency_pos {s : State} (hL : 1 ≤ s.build.latency) :
    presentedWord s = .ok (s.hostLine.drivenWord (registeredOutputs s).toWord) := by
  by_cases h : s.hostLine.feedback = []
  · rw [presentedWord_of_no_wires h, HostLine.drivenWord, h, List.foldl_nil]
  · have h0 : s.build.latency ≠ 0 := Nat.one_le_iff_ne_zero.mp hL
    simp [presentedWord, h, h0]

theorem step_of_line {s : State} {d : HostLine} {ds : List HostLine} (h : s.input = d :: ds) (hd : d.feedback = []) :
    step s = exec (decode d.word) { s with input := ds } := by
  have hline := State.hostLine_of_input_eq_cons h
  rw [step_of_presentedWord (presentedWord_of_no_wires (hline ▸ hd)), hline, State.nextCycle_of_input_eq_cons h]

theorem State.withFetchWord_input (s : State) (n w : Nat) :
    (s.withFetchWord n w).input = { word := BitVec.ofNat 258 (lowBits n w), feedback := [] } :: s.input.tail := rfl

/-- Settles O35: the word on the ports is the listed line's, a free one, or the line completed by its wires. -/
theorem stepRunsTheDecodedOperation : Obligations.StepRunsTheDecodedOperation := by
  unfold Obligations.StepRunsTheDecodedOperation
  refine ⟨fun s d ds h hd => step_of_line h hd, fun s h => ?_, fun s d ds h hL => ?_, fun s n w => ?_⟩
  · have hline := State.hostLine_of_input_eq_nil h
    rw [step_of_presentedWord (presentedWord_of_no_wires (by rw [hline])), hline, State.nextCycle_of_input_eq_nil h,
      State.draw]
  · rw [step_of_presentedWord (presentedWord_of_latency_pos hL), State.hostLine_of_input_eq_cons h,
      State.nextCycle_of_input_eq_cons h]
  · rw [step_of_line (s.withFetchWord_input n w) rfl, lowBits]
    rfl

/-! ## Programs -/

theorem core_run_succ {M : Host.Core} {s t : M.State} (h : M.step s = .next t) (k : Nat) : M.run (k + 1) s = M.run k t := by
  rw [Host.Core.run, h]

theorem stepMany_succ {s t : State} (h : step s = .next t) (k : Nat) : stepMany (k + 1) s = stepMany k t := by
  rw [stepMany, core_run_succ (M := core) h, stepMany]

theorem exec_keeps_input {i : Instr} {s t : State} (h : exec i s = .next t) : t.input = s.input := by
  cases i <;> cases h <;> rfl

/-- An operation never looks at the host's later lines. -/
theorem exec_with_input {i : Instr} {s t : State} (h : exec i s = .next t) (ds : List HostLine) :
    exec i { s with input := ds } = .next { t with input := ds } := by
  cases i <;> cases h <;> rfl

theorem step_hostLines_cons {i : Instr} {s t : State} (h : exec i s = .next t) (is : List Instr) (rest : List HostLine) :
    step { s with input := hostLines (i :: is) ++ rest } = .next { t with input := hostLines is ++ rest } := by
  rw [step_of_line (d := { word := encode i, feedback := [] }) (ds := hostLines is ++ rest) rfl rfl, decode_encode]
  exact exec_with_input h _

/-- Settles O38, by induction on the program: each step takes one line off, and no operation looks at the lines after it. -/
theorem programLinesRunInOrder : Obligations.ProgramLinesRunInOrder := by
  unfold Obligations.ProgramLinesRunInOrder
  intro is
  induction is with
  | nil => exact fun s rest => ⟨_, rfl, rfl, rfl⟩
  | cons i is ih =>
    intro s rest
    obtain ⟨u, hu⟩ := exec_completes i { s with input := rest }
    obtain ⟨t, hsteps, hrun, hinput⟩ := ih u rest
    obtain rfl : u.input = rest := exec_keeps_input hu
    refine ⟨t, ?_, ?_, hinput⟩
    · rw [List.length_cons, stepMany_succ (step_hostLines_cons hu is _), hsteps]
    · rw [runAll_cons hu, ← hrun]

end Sys2Proof.Machine
end

section
/-! The stimulus language (30_encoding.md R56, R57): its values, and what DRAIN does to the pipeline. -/

namespace Sys2Proof.Machine

/-! ## Values -/

theorem AsmValue.operand_of_lt {x : AsmValue} (h : x.eval < 2 ^ 256) : x.operand = .ok (BitVec.ofNat 256 x.eval) :=
  if_pos h

theorem AsmValue.operand_of_le {x : AsmValue} (h : 2 ^ 256 ≤ x.eval) : x.operand = .error .valueTooWide :=
  if_neg (Nat.not_lt.mpr h)

/-- Settles O48: each operation line expands by the operand of its value alone. -/
theorem operandsOf256BitsOnly : Obligations.OperandsOf256BitsOnly := by
  unfold Obligations.OperandsOf256BitsOnly
  refine ⟨fun _ => rfl, fun _ => rfl, fun _ => rfl, fun _ _ => rfl, fun x => ⟨fun L h => ?_, fun L h => ?_⟩⟩
  · refine ⟨BitVec.ofNat 256 x.eval, (BitVec.toNat_ofNat ..).trans (Nat.mod_eq_of_lt h), ?_⟩
    simp only [AsmLine.expand, optionalOperand, AsmValue.operand_of_lt h, Except.map, and_self]
  · simp only [AsmLine.expand, optionalOperand, AsmValue.operand_of_le h, Except.map, and_self]

/-! ## Pseudo-instructions -/

/-- The first `n` registers hold no transaction. -/
def State.ClearBelow (s : State) (n : Nat) : Prop := ∀ k, k < n → k < s.build.latency → s.HoldsAt k none

theorem State.ClearBelow.empty {s : State} (hs : s.wellFormed = true) (h : s.ClearBelow s.build.latency) : s.Empty := by
  obtain ⟨-, hlen⟩ := s.wellFormed_iff.mp hs
  intro p hp
  obtain ⟨k, hk⟩ := List.mem_iff_getElem?.mp hp
  have hkL : k < s.build.latency := hlen ▸ (List.getElem?_eq_some_iff.mp hk).1
  obtain ⟨c, q, -, hq, hnone⟩ := h k hkL hkL
  rw [hk] at hq
  cases hq
  exact hnone

theorem State.Empty.inFlight {s : State} (h : s.Empty) : s.inFlight = 0 :=
  List.countP_eq_zero.mpr fun p hp => by simp [h p hp]

/-- An operation that brings in no transaction clears one register more. -/
theorem exec_clearBelow_succ {i : Instr} {s t : State} {n : Nat} (hs : s.wellFormed = true) (hm : s.Meaningful)
    (hi : acceptedOperand i = none) (hn : s.ClearBelow n) (h : exec i s = .next t) : t.ClearBelow (n + 1) := by
  intro k hk hkL
  rw [exec_keeps_build h] at hkL
  have hb := hm.booted (Nat.one_le_of_lt hkL)
  cases k with
  | zero => exact hi ▸ exec_enters hs hb hkL h
  | succ k =>
    have hadv := exec_advances hs hb hkL (hn k (Nat.lt_of_succ_lt_succ hk) (Nat.lt_of_succ_lt hkL)) h
    rwa [ite_self] at hadv

theorem runAll_idle_clearBelow {s t : State} {m n : Nat} {v : Operand} (hs : s.wellFormed = true) (hm : s.Meaningful)
    (hn : s.ClearBelow n) (h : runAll (List.replicate m (.idle v)) s = some t) : t.ClearBelow (n + m) := by
  induction m generalizing s n with
  | zero => cases h; exact hn
  | succ m ih =>
    obtain ⟨u, hu⟩ := exec_completes (.idle v) s
    obtain ⟨huwf, -⟩ := exec_keeps_wellFormed hs hu
    rw [List.replicate_succ, runAll_cons hu] at h
    rw [Nat.add_comm m 1, ← Nat.add_assoc]
    exact ih huwf (exec_keeps_meaningful hm hu) (exec_clearBelow_succ hs hm rfl hn hu) h

/-- LATENCY cycles of IDLE push every transaction out, whatever was in flight. -/
theorem runAll_drain {s : State} (hs : s.wellFormed = true) (hm : s.Meaningful) (v : Operand) :
    ∃ t, runAll (List.replicate s.build.latency (.idle v)) s = some t ∧ t.Empty := by
  obtain ⟨t, ht, htwf, -, hbuild⟩ := runAll_completes hs hm (List.replicate s.build.latency (.idle v))
  have hclear := runAll_idle_clearBelow (n := 0) hs hm (fun k hk => absurd hk (Nat.not_lt_zero k)) ht
  rw [Nat.zero_add, ← hbuild] at hclear
  exact ⟨t, ht, hclear.empty htwf⟩

/-- Settles O47: the expansions are the definition's own, and each IDLE of DRAIN clears one register more, from `P[1]` on. -/
theorem pseudoInstructionsExpand : Obligations.PseudoInstructionsExpand := by
  unfold Obligations.PseudoInstructionsExpand
  refine ⟨fun _ _ => rfl, fun _ => rfl, fun _ => rfl, rfl, fun s hs hm => ?_⟩
  obtain ⟨t, ht, hempty⟩ := runAll_drain hs hm 0#256
  exact ⟨t, ht, hempty.inFlight⟩

end Sys2Proof.Machine
end

section
/-! Don't-cares (30_encoding.md R51, R52, R54; 40_msb_operation.md R70, R71): the ports that a reading never looks at, and the
fields that IDLE and RESET ignore. -/

namespace Sys2Proof.Machine

/-- Settles O33: a reading branches on `out_valid`, then on `err`, and takes the other ports only where both branches allow. -/
theorem readingLooksAtNoFreePort : Obligations.ReadingLooksAtNoFreePort := by
  unfold Obligations.ReadingLooksAtNoFreePort
  intro e m m' l l' e'
  exact ⟨rfl, rfl, rfl, rfl, rfl, rfl⟩

/-- Without a result, neither the zero flag nor the accumulator reaches a port. -/
theorem assembleOutputs_eq_of_invalid (n : Nat) (z z' : Bool) (r r' : Result) :
    assembleOutputs n false z r = assembleOutputs n false z' r' := by
  rw [assembleOutputs, assembleOutputs, Bool.false_and, Bool.false_and]
  simp only [Bool.false_eq_true, if_false]

/-- The outputs of a cycle depend on a sample only where it is accepted. -/
theorem outputs_eq_of_not_accepted {smp smp' : Sample} (h : (smp.inValid && !smp.rst) = false)
    (h' : (smp'.inValid && !smp'.rst) = false) (s : State) : outputs s smp = outputs s smp' := by
  rw [outputs, outputs, combinationalOutputs, combinationalOutputs, h, h', assembleOutputs_eq_of_invalid]

theorem shiftFrom_eq_of_invalid {src src' : Reg} (h : src.valid = false) (h' : src'.valid = false)
    (n k cut : Nat) (cs : List Nat) (ps : List Reg) :
    shiftFrom n k cut src cs ps = shiftFrom n k cut src' cs ps := by
  match cs, ps with
  | [], _ => rfl
  | _ :: _, [] => rfl
  | c :: cs, p :: ps => rw [shiftFrom, shiftFrom, loaded_of_invalid h, loaded_of_invalid h']

/-- An edge that brings in no transaction has no use for `v`. -/
theorem clockEdge_eq_of_invalid {smp smp' : Sample} (h : smp.inValid = false) (h' : smp'.inValid = false) (s : State) :
    clockEdge smp s = clockEdge smp' s := by
  rw [clockEdge, clockEdge, outputs_eq_of_not_accepted (smp' := smp') (by rw [h, Bool.false_and]) (by rw [h', Bool.false_and]),
    shiftFrom_eq_of_invalid (src := entering smp) (src' := entering smp') h h']

/-- A reset edge has no use for `in_valid` and `v`. -/
theorem resetEdge_eq_of_rst {smp smp' : Sample} (h : smp.rst = true) (h' : smp'.rst = true) (s : State) :
    resetEdge smp s = resetEdge smp' s := by
  have hnot {x : Sample} (hx : x.rst = true) : (x.inValid && !x.rst) = false := by rw [hx, Bool.not_true, Bool.and_false]
  rw [resetEdge, resetEdge, outputs_eq_of_not_accepted (hnot h) (hnot h')]

/-- `v` under IDLE has no effect (R70). -/
theorem exec_idle_eq (v v' : Operand) (s : State) : exec (.idle v) s = exec (.idle v') s :=
  congrArg _ (clockEdge_eq_of_invalid rfl rfl s)

/-- `in_valid` and `v` under RESET have no effect (R71). -/
theorem exec_reset_eq (b b' : Bool) (v v' : Operand) (s : State) : exec (.reset b v) s = exec (.reset b' v') s :=
  congrArg _ (resetEdge_eq_of_rst rfl rfl s)

/-- Settles O30: from one state the ignored fields make no difference at all, and from two states that agree the operation
leaves states that agree. -/
theorem ignoredFieldsHaveNoEffect : Obligations.IgnoredFieldsHaveNoEffect := by
  unfold Obligations.IgnoredFieldsHaveNoEffect
  constructor
  · intro v v' s s' hs h
    rw [exec_idle_eq v' v s']
    exact freeValuesReachNoReading (.idle v) s s' hs h
  · intro b b' v v' s s' hs h
    rw [exec_reset_eq b' b v' v s']
    exact freeValuesReachNoReading (.reset b v) s s' hs h

end Sys2Proof.Machine
end

section
/-! The contract of FMSB (40_msb_operation.md R59 to R69): the result is the one index that brackets the operand between two
powers of two, and its monotony, its exact values and its leading-zero count are read off that.
The outcome of a completed transaction (R61) is the contract's. -/

namespace Sys2Proof.Machine

/-! ## The brackets -/

theorem zeroDetect_eq_true_iff (v : Operand) : zeroDetect v = true ↔ v = 0#256 := beq_iff_eq

theorem findMsb_zero : findMsb 0#256 = .error .invalidInput := by
  rw [findMsb_eq_stages, if_pos ((zeroDetect_eq_true_iff _).mpr rfl)]

theorem findMsb_of_ne_zero {v : Operand} (hv : v ≠ 0#256) : findMsb v = .ok (cascade v).r := by
  rw [findMsb_eq_stages, if_neg (mt (zeroDetect_eq_true_iff v).mp hv), cascade]

/-- The cascade reduces a nonzero operand to 1 (R91). -/
theorem cascade_w_of_ne_zero {v : Operand} (hv : v ≠ 0#256) : (cascade v).w = 1#256 := by
  obtain ⟨-, hlt, -, -, hne⟩ := stages_progress v 8 le_rfl
  exact BitVec.eq_of_toNat_eq (le_antisymm (Nat.lt_succ_iff.mp hlt) (Nat.one_le_iff_ne_zero.mpr (hne hv)))

/-- What remains of a nonzero operand shifted right by the accumulator is 1, so the accumulator brackets it (R59). -/
theorem cascade_r_brackets {v : Operand} (hv : v ≠ 0#256) :
    2 ^ (cascade v).r.toNat ≤ v.toNat ∧ v.toNat < 2 ^ ((cascade v).r.toNat + 1) := by
  obtain ⟨hshift, -, -, -, -⟩ := stages_progress v 8 le_rfl
  have hone : v.toNat / 2 ^ (cascade v).r.toNat = 1 :=
    hshift.symm.trans (congrArg BitVec.toNat (cascade_w_of_ne_zero hv))
  have hp : 0 < 2 ^ (cascade v).r.toNat := Nat.two_pow_pos _
  rw [Nat.div_eq_iff hp] at hone
  rw [pow_succ]
  omega

/-- Only one index brackets a number between two powers of two. -/
theorem brackets_unique {m n k : Nat} (hm : 2 ^ m ≤ n ∧ n < 2 ^ (m + 1)) (hk : 2 ^ k ≤ n ∧ n < 2 ^ (k + 1)) : m = k := by
  rw [← Nat.log_eq_of_pow_le_of_lt_pow hm.1 hm.2, Nat.log_eq_of_pow_le_of_lt_pow hk.1 hk.2]

/-- The whole of FMSB's contract on numbers (R59): the result is the index that brackets the operand. -/
theorem findMsb_eq_ok_iff {v : Operand} {r : Result} :
    findMsb v = .ok r ↔ 2 ^ r.toNat ≤ v.toNat ∧ v.toNat < 2 ^ (r.toNat + 1) := by
  by_cases hv : v = 0#256
  · subst hv
    rw [findMsb_zero]
    exact iff_of_false nofun fun h => absurd h.1 (Nat.not_le.mpr (Nat.two_pow_pos _))
  · rw [findMsb_of_ne_zero hv, Except.ok.injEq]
    constructor
    · rintro rfl
      exact cascade_r_brackets hv
    · exact fun h => BitVec.eq_of_toNat_eq (brackets_unique (cascade_r_brackets hv) h)

/-- No bit stands above the result (R60). -/
theorem getLsbD_above_findMsb {v : Operand} {r : Result} (h : findMsb v = .ok r) {i : Nat} (hi : r.toNat < i) :
    v.getLsbD i = false := by
  obtain ⟨-, hlt⟩ := findMsb_eq_ok_iff.mp h
  exact Nat.testBit_lt_two_pow (hlt.trans_le (Nat.pow_le_pow_right Nat.two_pos hi))

/-- Settles O11: the cascade's accumulator brackets the operand, and one index at most does. -/
theorem findMsbBracketsTheOperand : Obligations.FindMsbBracketsTheOperand := by
  unfold Obligations.FindMsbBracketsTheOperand
  intro v hv
  have hr := findMsb_of_ne_zero hv
  obtain ⟨hle, hlt⟩ := cascade_r_brackets hv
  exact ⟨_, hr, hle, hlt, Nat.testBit_of_two_pow_le_and_two_pow_add_one_gt hle hlt,
    fun _ hi => getLsbD_above_findMsb hr hi, fun _ hn hn' => brackets_unique ⟨hn, hn'⟩ ⟨hle, hlt⟩⟩

/-- Settles O12: `2^r1 <= v1 <= v2 < 2^(r2+1)`. -/
theorem findMsbIsMonotone : Obligations.FindMsbIsMonotone := by
  unfold Obligations.FindMsbIsMonotone
  intro v1 v2 hv1 hle
  have hv2 : v2 ≠ 0#256 := by
    rintro rfl
    exact hv1 (BitVec.eq_of_toNat_eq (Nat.le_zero.mp hle))
  refine ⟨_, _, findMsb_of_ne_zero hv1, findMsb_of_ne_zero hv2, Nat.lt_succ_iff.mp ?_⟩
  rw [← Nat.pow_lt_pow_iff_right one_lt_two]
  exact (cascade_r_brackets hv1).1.trans_lt (hle.trans_lt (cascade_r_brackets hv2).2)

/-! ## Powers of two and the boundary operands -/

/-- A number that `k` brackets, as an operand, has the result `k`. -/
theorem findMsb_ofNat {n k : Nat} (hk : k ≤ 255) (hle : 2 ^ k ≤ n) (hlt : n < 2 ^ (k + 1)) :
    findMsb (BitVec.ofNat 256 n) = .ok (BitVec.ofNat 8 k) := by
  have hn : n < 2 ^ 256 := hlt.trans_le (Nat.pow_le_pow_right Nat.two_pos (Nat.succ_le_succ hk))
  rw [findMsb_eq_ok_iff, BitVec.toNat_ofNat, BitVec.toNat_ofNat, Nat.mod_eq_of_lt hn,
    Nat.mod_eq_of_lt (Nat.lt_succ_of_le hk)]
  exact ⟨hle, hlt⟩

theorem findMsb_two_pow {k : Nat} (hk : k ≤ 255) : findMsb (BitVec.ofNat 256 (2 ^ k)) = .ok (BitVec.ofNat 8 k) :=
  findMsb_ofNat hk le_rfl (Nat.pow_lt_pow_succ one_lt_two)

theorem findMsb_two_pow_succ_sub_one {k : Nat} (hk : k ≤ 255) :
    findMsb (BitVec.ofNat 256 (2 ^ (k + 1) - 1)) = .ok (BitVec.ofNat 8 k) :=
  findMsb_ofNat hk (Nat.le_sub_one_of_lt (Nat.pow_lt_pow_succ one_lt_two)) (Nat.sub_one_lt (Nat.two_pow_pos _).ne')

/-- Settles O13: `2^k` and `2^(k+1) - 1` are the two ends of the interval that `k` brackets. -/
theorem powersOfTwoAreExact : Obligations.PowersOfTwoAreExact := by
  unfold Obligations.PowersOfTwoAreExact
  exact fun k hk => ⟨findMsb_two_pow hk, findMsb_two_pow_succ_sub_one hk⟩

theorem findMsb_one : findMsb 1#256 = .ok 0#8 := findMsb_two_pow (k := 0) (by decide)

theorem findMsb_topBit : findMsb (1#256 <<< 255) = .ok 255#8 := findMsb_two_pow (k := 255) (by decide)

theorem findMsb_allOnes : findMsb (BitVec.allOnes 256) = .ok 255#8 := findMsb_two_pow_succ_sub_one (k := 255) (by decide)

/-- Settles O14: three ends of bracketed intervals, and the domain error. -/
theorem boundaryOperands : Obligations.BoundaryOperands := by
  unfold Obligations.BoundaryOperands
  exact ⟨findMsb_one, findMsb_topBit, findMsb_allOnes, findMsb_zero⟩

/-- Settles O16: the step list of R58 is the list of the cascade's step sizes. -/
theorem findMsbReadsTheCascade : Obligations.FindMsbReadsTheCascade := by
  unfold Obligations.FindMsbReadsTheCascade
  exact findMsb_eq_stages

/-! ## The leading-zero count -/

theorem countP_range_lt (r n : Nat) : (List.range (r + 1 + n)).countP (fun i => decide (r < i)) = n := by
  induction n with
  | zero =>
    rw [List.countP_eq_zero]
    intro i hi
    rw [Nat.add_zero, List.mem_range] at hi
    simpa using Nat.le_of_lt_succ hi
  | succ n ih =>
    have hr : r < r + 1 + n := by omega
    rw [← Nat.add_assoc, List.range_succ, List.countP_append, ih, List.countP_singleton, if_pos (decide_eq_true hr)]

/-- Settles O17: every bit above the result is 0, so the zeros above it are all the 255 - r places there. -/
theorem leadingZeroCountIsTheComplement : Obligations.LeadingZeroCountIsTheComplement := by
  unfold Obligations.LeadingZeroCountIsTheComplement
  intro v r h
  refine ⟨lzcOf_toNat r, ?_, fun _ hi => getLsbD_above_findMsb h hi⟩
  have hzero : ∀ i ∈ List.range 256,
      (decide (r.toNat < i) && !v.getLsbD i) = true ↔ decide (r.toNat < i) = true := by
    intro i _
    rw [Bool.and_eq_true, Bool.not_eq_true']
    exact and_iff_left_of_imp fun hi => getLsbD_above_findMsb h (of_decide_eq_true hi)
  have hsplit : 256 = r.toNat + 1 + (255 - r.toNat) := by
    have := r.isLt
    omega
  rw [List.countP_congr hzero, hsplit, countP_range_lt, lzcOf_toNat]

/-- Settles O18: subtracting from all ones complements, and the ends are those of O14. -/
theorem complementIsSubtractionFrom255 : Obligations.ComplementIsSubtractionFrom255 := by
  unfold Obligations.ComplementIsSubtractionFrom255
  rw [findMsb_one, findMsb_topBit, findMsb_allOnes]
  exact ⟨fun r => ⟨(lzcOf_eq_sub r).symm, rfl⟩, rfl, rfl, rfl⟩

/-! ## The outcome of a transaction -/

/-- Settles O46: each of the two runs delivers the contract's outcome of the operand, with the count that goes with it. -/
theorem outcomeDependsOnTheOperandAlone : Obligations.OutcomeDependsOnTheOperandAlone := by
  unfold Obligations.OutcomeDependsOnTheOperandAlone
  intro v s s' is is' hs hs' hm hm' hlen hlen' hkept hkept'
  have hresult {js : List Instr} (h : js.dropLast.any Instr.isReset = false) :
      resultOf (.fmsb v) js.dropLast = some (findMsb v) := by
    rw [resultOf_eq, h]
    rfl
  obtain ⟨t, ht, -⟩ := runAll_completes hs hm (.fmsb v :: is)
  obtain ⟨t', ht', -⟩ := runAll_completes hs' hm' (.fmsb v :: is')
  obtain ⟨hout, hcount⟩ := runAll_delivers_resultOf hs hm hlen ht
  obtain ⟨hout', hcount'⟩ := runAll_delivers_resultOf hs' hm' hlen' ht'
  rw [hresult hkept] at hout hcount
  rw [hresult hkept'] at hout' hcount'
  exact ⟨t, t', ht, ht', hout.trans hout'.symm, hout, hcount.trans hcount'.symm⟩

end Sys2Proof.Machine
end

section
/-! IDLE and RESET (40_msb_operation.md R70, R71): what an edge advances, and what the cycle before it still shows. -/

namespace Sys2Proof.Machine

/-- An edge with `rst = 0` takes each register's content on to the next, through the stages between (R93). -/
theorem clockEdge_advancedTo {s : State} (hs : s.wellFormed = true) (hb : s.booted = true) (smp : Sample) :
    s.AdvancedTo (clockEdge smp s) := by
  obtain ⟨-, hlen⟩ := s.wellFormed_iff.mp hs
  rw [State.AdvancedTo, clockEdge_regs_of_booted hb]
  refine ⟨by rw [shiftFrom_length, hlen, Build.latency, Nat.min_self], fun k c c' p hc hc' hp => ?_⟩
  refine ⟨_, shiftFrom_getElem?_succ hc hc' hp hlen, loaded_valid .., fun hv => ?_⟩
  rw [loaded_of_valid hv]
  exact ⟨rfl, rfl⟩

/-- Once a reset edge has happened the cycle shows the last register, whatever the ports carry (R92, R93). -/
theorem outputs_shownOn {s : State} (hb : s.booted = true) (smp : Sample) : s.ShownOn (outputs s smp) := by
  intro c p hc hp
  have hL : 1 ≤ s.build.latency := List.length_pos_of_mem (List.mem_of_getLast? hc)
  rw [outputs_of_latency_pos hL, registeredOutputs_eq hb hc hp]
  refine ⟨assembleOutputs_valid .., fun hv => ?_, fun hv hz => ?_⟩
  · rw [hv]
    rfl
  · rw [hv, hz]
    exact ⟨rfl, lzcOf_toNat _⟩

/-- Settles O26: IDLE is an edge with `rst = 0` that brings in no transaction. -/
theorem idleLetsInABubble : Obligations.IdleLetsInABubble := by
  unfold Obligations.IdleLetsInABubble
  intro v s hs hb hL
  obtain ⟨c, p, -, hp, hbubble⟩ := exec_enters hs hb hL (exec_idle v s)
  exact ⟨_, p, exec_idle v s, List.head?_eq_getElem?.trans hp, hbubble, clockEdge_advancedTo hs hb _,
    outputs_shownOn hb _, clockEdge_sameSetting _ s⟩

/-- With LATENCY = 0 the cycle of a reset edge shows no result (R94). -/
theorem outputs_valid_of_rst {s : State} {smp : Sample} (hL : s.build.latency = 0) (h : smp.rst = true) :
    (outputs s smp).valid = false := by
  rw [outputs_of_latency_zero hL, combinationalOutputs, assembleOutputs_valid, h, Bool.not_true, Bool.and_false]

theorem RegsAgree.refl (ps : List Reg) : RegsAgree ps ps := by
  induction ps with
  | nil => exact .nil
  | cons p ps ih => exact RegsAgree.cons_iff.mpr ⟨.refl p, ih⟩

theorem State.Agrees.refl (s : State) : s.Agrees s := ⟨rfl, rfl, rfl, rfl, fun _ => .refl _⟩

/-- Settles O27: a reset edge writes LATENCY bubbles, its cycle shows the old last register, and it reads no other port. -/
theorem resetDiscardsEverything : Obligations.ResetDiscardsEverything := by
  unfold Obligations.ResetDiscardsEverything
  intro inValid v s
  refine ⟨_, exec_reset inValid v s, resetEdge_empty _ s, ?_, rfl, rfl, rfl, fun _ hb => outputs_shownOn hb _,
    fun hL => outputs_valid_of_rst hL rfl, fun b u => ?_⟩
  · rw [resetEdge_regs, List.length_map, List.length_range']
  · exact ⟨_, (exec_reset_eq b inValid u v s).trans (exec_reset inValid v s), .refl _, fun _ => ⟨rfl, rfl⟩⟩

end Sys2Proof.Machine
end

section
/-! The other forms of the datapath (92_eei_decisions.md D21, D23; 41_halving_stages.md R88, R89, R91), and the order of the
steps (40_msb_operation.md R67). -/

namespace Sys2Proof.Machine

/-! ## Step sizes -/

theorem stepSize_eq_two_mul_succ {j : Nat} (hj : j < 8) : stepSize j = 2 * stepSize (j + 1) := by
  rw [stepSize, stepSize, ← pow_succ']
  congr 1
  omega

theorem stepSize_lt_of_lt {j k : Nat} (hjk : j < k) (hk : k ≤ 8) : stepSize k < stepSize j :=
  Nat.pow_lt_pow_right one_lt_two (by omega)

/-! ## The narrow stage -/

/-- Below `2^(2s)` the window is the whole of the shifted value (R88). -/
theorem window_toNat {s : Nat} {w : Operand} (h : w.toNat < 2 ^ (2 * s)) :
    (w.extractLsb' s s).toNat = (w >>> s).toNat := by
  have hlt : w.toNat / 2 ^ s < 2 ^ s := by
    rw [Nat.div_lt_iff_lt_mul (Nat.two_pow_pos s), ← pow_add, ← two_mul]
    exact h
  rw [BitVec.extractLsb'_toNat, BitVec.toNat_ushiftRight, Nat.shiftRight_eq_div_pow, Nat.mod_eq_of_lt hlt]

theorem takenByWindow_eq_stageTaken {s : Nat} {w : Operand} (h : w.toNat < 2 ^ (2 * s)) :
    takenByWindow s w = stageTaken s w := by
  rw [takenByWindow, stageTaken, Bool.eq_iff_iff, bne_iff_ne, bne_iff_ne, Ne, Ne, ← BitVec.toNat_inj, ← BitVec.toNat_inj,
    window_toNat h, BitVec.toNat_ofNat, BitVec.toNat_ofNat, Nat.zero_mod, Nat.zero_mod]

theorem setWidth_window {s : Nat} {w : Operand} (h : w.toNat < 2 ^ (2 * s)) :
    (w.extractLsb' s s).setWidth 256 = w >>> s := by
  apply BitVec.eq_of_toNat_eq
  rw [BitVec.toNat_setWidth, window_toNat h, Nat.mod_eq_of_lt (BitVec.isLt _)]

/-- The accumulator entering stage `j + 1` is a multiple of twice the step, so the add sets one clear bit (R89). -/
theorem or_stepSize_eq_add {r : Result} {j : Nat} (h : stepSize j ∣ r.toNat) (hj : j < 8) :
    r ||| BitVec.ofNat 8 (stepSize (j + 1)) = r + BitVec.ofNat 8 (stepSize (j + 1)) := by
  have hstep : (BitVec.ofNat 8 (stepSize (j + 1))).toNat = stepSize (j + 1) := by
    rw [BitVec.toNat_ofNat]
    exact Nat.mod_eq_of_lt (Nat.pow_lt_pow_right one_lt_two (by omega))
  have hor : (r ||| BitVec.ofNat 8 (stepSize (j + 1))).toNat = r.toNat + (BitVec.ofNat 8 (stepSize (j + 1))).toNat := by
    obtain ⟨a, ha⟩ := h
    rw [BitVec.toNat_or, hstep, ha]
    exact (Nat.two_pow_add_eq_or_of_lt (stepSize_lt_of_lt (Nat.lt_succ_self j) hj) a).symm
  apply BitVec.eq_of_toNat_eq
  rw [hor, BitVec.toNat_add_of_lt (hor ▸ BitVec.isLt _)]

/-- The narrow stage is the stage on what enters it (R88, R89). -/
theorem windowStage_eq_stage {x : Work} {j : Nat} (hj : j < 8) (hw : x.w.toNat < 2 ^ stepSize j)
    (hr : stepSize j ∣ x.r.toNat) : windowStage (stepSize (j + 1)) x = stage (stepSize (j + 1)) x := by
  rw [stepSize_eq_two_mul_succ hj] at hw
  rw [windowStage, stage, takenByWindow_eq_stageTaken hw, setWidth_window hw, or_stepSize_eq_add hr hj]

/-- A run of narrow stages, by induction on the stages: each finds what the stages before it leave (R87). -/
theorem foldl_windowStage_eq_stages (v : Operand) {j : Nat} (hj : j ≤ 8) :
    ((List.range' 1 j).map stepSize).foldl (fun y s => windowStage s y) (Work.start v) = stages 1 j (Work.start v) := by
  induction j with
  | zero => rfl
  | succ j ih =>
    obtain ⟨-, hw, hr, -, -⟩ := stages_progress v j (Nat.le_of_succ_le hj)
    rw [List.range'_1_concat, List.map_append, List.foldl_append, ih (Nat.le_of_succ_le hj),
      stages_snoc (Nat.le_add_left 1 j), ← windowStage_eq_stage hj hw hr, Nat.add_comm 1 j]
    rfl

/-! ## The zero detector and the comparison -/

theorem cascade_w_zero : (cascade 0#256).w = 0#256 := by
  obtain ⟨hshift, -, -, -, -⟩ := stages_progress 0#256 8 le_rfl
  exact BitVec.eq_of_toNat_eq (hshift.trans (Nat.zero_div _))

/-- Bit 0 of the final working value tells zero from any other operand (R91). -/
theorem zeroDetectFromCascade_eq (v : Operand) : zeroDetectFromCascade v = zeroDetect v := by
  by_cases hv : v = 0#256
  · subst hv
    rw [zeroDetectFromCascade, cascade_w_zero]
    rfl
  · rw [zeroDetectFromCascade, cascade_w_of_ne_zero hv, eq_false_of_ne_true (mt (zeroDetect_eq_true_iff v).mp hv)]
    rfl

theorem takenByCompare_eq_stageTaken (s : Nat) (w : Operand) : takenByCompare s w = stageTaken s w := by
  rw [takenByCompare, Bool.eq_iff_iff, stageTaken_iff_le, decide_eq_true_iff]

/-! ## The obligations -/

/-- Settles O9: the narrow stages agree one by one on what enters them, and the other forms on every value. -/
theorem allowedRealisationsAgree : Obligations.AllowedRealisationsAgree := by
  unfold Obligations.AllowedRealisationsAgree
  exact ⟨fun v => foldl_windowStage_eq_stages v le_rfl, zeroDetectFromCascade_eq, takenByCompare_eq_stageTaken,
    fun r => (lzcOf_eq_sub r).symm⟩

/-- Settles O10: the two operands that R67 names, run through the ascending order and bracketed for FMSB. -/
theorem ascendingOrderIsAnotherFunction : Obligations.AscendingOrderIsAnotherFunction := by
  unfold Obligations.AscendingOrderIsAnotherFunction
  exact ⟨fun j k _ hjk hk => stepSize_lt_of_lt hjk hk, by decide, findMsb_ofNat (by decide) (by decide) (by decide),
    by decide, findMsb_two_pow (k := 200) (by decide)⟩

end Sys2Proof.Machine
end

section
/-! The halving stages (41_halving_stages.md R77 to R91): what each stage does to the window that enters it, and the result as
the number whose bits are the stages' decisions. -/

namespace Sys2Proof.Machine

/-! ## One stage -/

theorem stage_w_toNat_of_taken {s : Nat} {x : Work} (h : stageTaken s x.w = true) :
    (stage s x).w.toNat = x.w.toNat / 2 ^ s := by
  rw [stage_of_taken h, BitVec.toNat_ushiftRight, Nat.shiftRight_eq_div_pow]

theorem stage_r_toNat_of_taken {s : Nat} {x : Work} (h : stageTaken s x.w = true) (hr : x.r.toNat + s ≤ 255) :
    (stage s x).r.toNat = x.r.toNat + s := by
  rw [stage_of_taken h, BitVec.toNat_add, BitVec.toNat_ofNat, Nat.add_mod_mod]
  exact Nat.mod_eq_of_lt (Nat.lt_succ_of_le hr)

/-- Settles O1: the test is `2^s <= w`, which says that the quotient is nonzero. -/
theorem stageShiftsAndAddsOnlyWhenTaken : Obligations.StageShiftsAndAddsOnlyWhenTaken := by
  unfold Obligations.StageShiftsAndAddsOnlyWhenTaken
  intro s x _
  refine ⟨?_, fun h => ⟨stage_w_toNat_of_taken h, stage_r_toNat_of_taken h⟩, stage_of_not_taken⟩
  rw [stageTaken_iff_le, Nat.div_ne_zero_iff, and_iff_right (Nat.two_pow_pos s).ne']

/-! ## Runs of stages -/

/-- A run of stages begins with its first stage. -/
theorem stages_cons {a b : Nat} (h : a ≤ b) (x : Work) :
    stages a b x = stages (a + 1) b (stage (stepSize a) x) := by
  have hlen : b + 1 - a = (b + 1 - (a + 1)) + 1 := by omega
  rw [stages, hlen, List.range'_succ, List.foldl_cons, stages]

/-- Settles O2: a run of stages is a fold over consecutive stage numbers, which may be cut anywhere. -/
theorem stagesSplitBetweenRegisters : Obligations.StagesSplitBetweenRegisters := by
  unfold Obligations.StagesSplitBetweenRegisters
  refine ⟨fun _ => rfl, fun _ _ x h => stages_of_lt h x, fun _ _ x h => stages_cons h x, ?_⟩
  exact fun a b c x _ hab hbc _ => (stages_stages (Nat.le_succ_of_le hab) hbc.le x).symm

/-- Shifting a nonzero operand by the accumulator lowers its top index by as much (R87 (c)). -/
theorem stages_r_add_msbIndex {v : Operand} (hv : v ≠ 0#256) {k : Nat} (hk : k ≤ 8) :
    (stages 1 k (Work.start v)).r.toNat + msbIndex (stages 1 k (Work.start v)).w = msbIndex v := by
  obtain ⟨hshift, -, -, -, hne⟩ := stages_progress v k hk
  have hpos := hne hv
  rw [hshift, Nat.div_ne_zero_iff] at hpos
  rw [msbIndex, msbIndex, hshift, Nat.log2_eq_log_two, Nat.log2_eq_log_two, Nat.log_div_base_pow]
  exact Nat.add_sub_cancel' (Nat.le_log_of_pow_le one_lt_two hpos.2)

/-- Settles O3: what enters stage `j` is what the stages before it have done, and stage 8 leaves a 1, whose index is 0. -/
theorem cascadeInvariant : Obligations.CascadeInvariant := by
  unfold Obligations.CascadeInvariant
  intro v
  refine ⟨fun j hj1 hj8 => ?_, ?_, fun hv => ⟨cascade_w_of_ne_zero hv, ?_⟩⟩
  · obtain ⟨k, rfl⟩ := Nat.exists_eq_add_of_le' hj1
    obtain ⟨-, hlt, hdvd, -, hne⟩ := stages_progress v k (Nat.le_of_succ_le hj8)
    rw [stepSize_eq_two_mul_succ hj8] at hlt hdvd
    refine ⟨hlt, hdvd, fun hv => ⟨fun h0 => hne hv ?_, stages_r_add_msbIndex hv (Nat.le_of_succ_le hj8)⟩⟩
    rw [Nat.add_sub_cancel] at h0
    rw [h0]
    rfl
  · obtain ⟨-, hlt, -, -, -⟩ := stages_progress v 8 le_rfl
    exact hlt
  · have hsum := stages_r_add_msbIndex hv le_rfl
    rw [← cascade, cascade_w_of_ne_zero hv] at hsum
    exact hsum

/-! ## The windows -/

/-- Settles O4: below `2^(2s)` the window is the whole of the shifted value. -/
theorem windowFormAgreesWithFullShift : Obligations.WindowFormAgreesWithFullShift := by
  unfold Obligations.WindowFormAgreesWithFullShift
  refine ⟨fun j hj1 hj8 x hw hr => ?_, takenByCompare_eq_stageTaken, fun j hj1 _ => ?_⟩
  · have htaken := takenByWindow_eq_stageTaken hw
    refine ⟨?_, (setWidth_window hw).symm, htaken, ?_⟩
    · rw [← bne_iff_ne, ← bne_iff_ne, ← stageTaken, ← takenByWindow, htaken]
    · obtain ⟨k, rfl⟩ := Nat.exists_eq_add_of_le' hj1
      rw [← stepSize_eq_two_mul_succ hj8] at hw hr
      exact windowStage_eq_stage hj8 hw hr
  · exact Nat.pow_le_pow_right Nat.two_pos (Nat.sub_le_sub_left hj1 8)

/-! ## The accumulator -/

/-- The decision bit of stage `j` in the cascade of `v`: `d_s` for the step `s` of that stage (R89). -/
def stageDecision (v : Operand) (j : Nat) : Bool :=
  stageTaken (stepSize j) (stages 1 (j - 1) (Work.start v)).w

/-- The accumulator has room for the next step (R90). -/
theorem stages_r_add_stepSize_le (v : Operand) {k : Nat} (hk : k < 8) :
    (stages 1 k (Work.start v)).r.toNat + stepSize (k + 1) ≤ 255 := by
  obtain ⟨-, -, -, hroom, -⟩ := stages_progress v k hk.le
  rw [stepSize_eq_two_mul_succ hk] at hroom
  have hs : 0 < stepSize (k + 1) := Nat.two_pow_pos _
  omega

theorem stages_succ_r_toNat (v : Operand) {k : Nat} (hk : k < 8) :
    (stages 1 (k + 1) (Work.start v)).r.toNat =
      (stages 1 k (Work.start v)).r.toNat + (stageDecision v (k + 1)).toNat * stepSize (k + 1) := by
  rw [stages_snoc (Nat.le_add_left 1 k), stageDecision, Nat.add_sub_cancel]
  cases h : stageTaken (stepSize (k + 1)) (stages 1 k (Work.start v)).w with
  | true => rw [stage_r_toNat_of_taken h (stages_r_add_stepSize_le v hk), Bool.toNat_true, one_mul]
  | false => rw [stage_of_not_taken h, Bool.toNat_false, zero_mul, add_zero]

/-- The accumulator is the sum of the steps taken so far (R89). -/
theorem stages_r_toNat_eq_sum (v : Operand) {k : Nat} (hk : k ≤ 8) :
    (stages 1 k (Work.start v)).r.toNat =
      ((List.range' 1 k).map fun j => (stageDecision v j).toNat * stepSize j).sum := by
  induction k with
  | zero => rfl
  | succ k ih =>
    rw [stages_succ_r_toNat v hk, ih (Nat.le_of_succ_le hk), List.range'_1_concat, List.map_append, List.sum_append,
      List.map_singleton, List.sum_singleton, Nat.add_comm 1 k]

/-- The steps so far leave of 256 what the last of them is. -/
theorem sum_stepSize_add {k : Nat} (hk : k ≤ 8) : ((List.range' 1 k).map stepSize).sum + stepSize k = 256 := by
  induction k with
  | zero => rfl
  | succ k ih =>
    have hk' := ih (Nat.le_of_succ_le hk)
    rw [stepSize_eq_two_mul_succ hk] at hk'
    rw [List.range'_1_concat, List.map_append, List.sum_append, List.map_singleton, List.sum_singleton, Nat.add_comm 1 k]
    omega

/-- Settles O6: the accumulator is a multiple of the last step with room for it below 256, and the next step is half of that. -/
theorem accumulatorNeverOverflows : Obligations.AccumulatorNeverOverflows := by
  unfold Obligations.AccumulatorNeverOverflows
  intro v
  refine ⟨fun j hj1 hj8 => ⟨?_, ?_⟩, Nat.add_right_cancel (sum_stepSize_add (k := 8) le_rfl)⟩
  · obtain ⟨k, rfl⟩ := Nat.exists_eq_add_of_le' hj1
    exact stages_r_add_stepSize_le v hj8
  · obtain ⟨-, -, -, hroom, -⟩ := stages_progress v j hj8
    rw [← sum_stepSize_add hj8] at hroom
    exact Nat.le_of_add_le_add_right hroom

/-! ## The bits of the result -/

theorem ofNat_stepSize_getLsbD {j : Nat} (hj : 1 ≤ j) (i : Nat) :
    (BitVec.ofNat 8 (stepSize j)).getLsbD i = decide (i = 8 - j) := by
  rw [BitVec.getLsbD_ofNat, stepSize, Nat.testBit_two_pow, ← Bool.decide_and]
  exact decide_eq_decide.mpr (by omega)

/-- A stage sets its own bit of the accumulator by its decision, and no other (R89). -/
theorem stages_succ_r_getLsbD (v : Operand) {k : Nat} (hk : k < 8) (i : Nat) :
    (stages 1 (k + 1) (Work.start v)).r.getLsbD i =
      ((stages 1 k (Work.start v)).r.getLsbD i || (stageDecision v (k + 1) && decide (i = 8 - (k + 1)))) := by
  rw [stages_snoc (Nat.le_add_left 1 k), stageDecision, Nat.add_sub_cancel]
  cases h : stageTaken (stepSize (k + 1)) (stages 1 k (Work.start v)).w with
  | true =>
    obtain ⟨-, -, hdvd, -, -⟩ := stages_progress v k hk.le
    rw [stage_of_taken h, ← or_stepSize_eq_add hdvd hk, BitVec.getLsbD_or, ofNat_stepSize_getLsbD (Nat.le_add_left 1 k),
      Bool.true_and]
  | false => rw [stage_of_not_taken h, Bool.false_and, Bool.or_false]

/-- After `k` stages the bit of stage `j` is its decision where it has run, else 0. -/
theorem stages_r_getLsbD (v : Operand) {j k : Nat} (hj1 : 1 ≤ j) (hj8 : j ≤ 8) (hk : k ≤ 8) :
    (stages 1 k (Work.start v)).r.getLsbD (8 - j) = (decide (j ≤ k) && stageDecision v j) := by
  induction k with
  | zero =>
    rw [decide_eq_false (Nat.not_le.mpr hj1), Bool.false_and]
    exact BitVec.getLsbD_zero
  | succ k ih =>
    have hbit : decide (8 - j = 8 - (k + 1)) = decide (j = k + 1) := decide_eq_decide.mpr (by omega)
    have hrun : decide (j ≤ k + 1) = (decide (j ≤ k) || decide (j = k + 1)) := by
      rw [← Bool.decide_or]
      exact decide_eq_decide.mpr Nat.le_add_one_iff
    rw [stages_succ_r_getLsbD v hk, ih (Nat.le_of_succ_le hk), hbit, hrun]
    by_cases h : j = k + 1
    · simp [h]
    · simp [h]

/-- The result's bit of stage `j` is the decision of that stage (R89). -/
theorem cascade_r_getLsbD (v : Operand) {j : Nat} (hj1 : 1 ≤ j) (hj8 : j ≤ 8) :
    (cascade v).r.getLsbD (8 - j) = stageDecision v j := by
  rw [cascade, stages_r_getLsbD v hj1 hj8 le_rfl, decide_eq_true hj8, Bool.true_and]

/-- Settles O5: each stage adds its step or nothing, and the bit it sets is clear before. -/
theorem resultBitsAreDecisionBits : Obligations.ResultBitsAreDecisionBits := by
  unfold Obligations.ResultBitsAreDecisionBits
  refine fun v => ⟨stages_r_toNat_eq_sum v le_rfl, fun j hj1 hj8 => ⟨cascade_r_getLsbD v hj1 hj8, ?_, ?_⟩⟩
  · have hnotRun : ¬ j ≤ j - 1 := by omega
    rw [stages_r_getLsbD v hj1 hj8 ((Nat.sub_le j 1).trans hj8), decide_eq_false hnotRun, Bool.false_and]
  · obtain ⟨k, rfl⟩ := Nat.exists_eq_add_of_le' hj1
    obtain ⟨-, -, hdvd, -, -⟩ := stages_progress v k (Nat.le_of_succ_le hj8)
    exact (or_stepSize_eq_add hdvd hj8).symm

/-! ## The zero operand -/

theorem stageTaken_zero (s : Nat) : stageTaken s 0#256 = false := by
  rw [stageTaken, BitVec.zero_ushiftRight, bne_self_eq_false]

/-- No stage is taken for the zero operand, so the values stay as they started (R91). -/
theorem stages_start_zero (k : Nat) : stages 1 k (Work.start 0#256) = Work.start 0#256 := by
  induction k with
  | zero => rfl
  | succ k ih => rw [stages_snoc (Nat.le_add_left 1 k), ih, stage_of_not_taken (stageTaken_zero _)]

/-- Settles O7: zero passes every stage untouched, and any other operand ends as 1. -/
theorem finalWorkingValueTellsZero : Obligations.FinalWorkingValueTellsZero := by
  unfold Obligations.FinalWorkingValueTellsZero
  refine fun v => ⟨?_, ?_, (zeroDetectFromCascade_eq v).symm⟩
  · split
    case isTrue hv => rw [hv, cascade_w_zero]
    case isFalse hv => exact cascade_w_of_ne_zero hv
  · rintro rfl
    refine ⟨?_, findMsb_zero, fun j _ _ => ?_⟩
    · rw [cascade, stages_start_zero, Work.start]
    · rw [stages_start_zero]
      exact stageTaken_zero _

/-! ## A stage and its window -/

/-- Settles O8: what enters stage `j` is below `2^(2s)`, where the window is the whole of the shifted value. -/
theorem eachStageHalvesItsWindow : Obligations.EachStageHalvesItsWindow := by
  unfold Obligations.EachStageHalvesItsWindow
  intro v j hj1 hj8
  obtain ⟨k, rfl⟩ := Nat.exists_eq_add_of_le' hj1
  obtain ⟨-, hw, hr, -, -⟩ := stages_progress v k (Nat.le_of_succ_le hj8)
  obtain ⟨-, hy, -, -, -⟩ := stages_progress v (k + 1) hj8
  rw [stepSize_eq_two_mul_succ hj8] at hw hr
  have hwindow := takenByWindow_eq_stageTaken hw
  have hstage := stages_snoc (Nat.le_add_left 1 k) (Work.start v)
  refine ⟨_, _, rfl, rfl, hw, hr, fun h => ?_, fun h => ?_, hy, ?_⟩
  · have htaken := hwindow.symm.trans h
    rw [Nat.add_sub_cancel, setWidth_window hw, hstage]
    exact ⟨by rw [stage_of_taken htaken], stage_r_toNat_of_taken htaken (stages_r_add_stepSize_le v hj8)⟩
  · rw [hstage]
    exact stage_of_not_taken (hwindow.symm.trans h)
  · exact (cascade_r_getLsbD v hj1 hj8).trans hwindow.symm

end Sys2Proof.Machine
end

section
/-! FMSB at the pipeline (41_halving_stages.md R92 to R95): the outputs of a result cycle, the transaction in `P[1]`, the form
without registers, and that the places of the registers make no difference. -/

namespace Sys2Proof.Machine

/-! ## The outputs of a result cycle -/

theorem assembleOutputs_err (n : Nat) (z : Bool) (r : Result) : (assembleOutputs n true z r).err = z := rfl

theorem assembleOutputs_msb (n : Nat) (r : Result) : (assembleOutputs n true false r).msb = r := rfl

theorem assembleOutputs_lzc (n : Nat) (r : Result) : (assembleOutputs n true false r).lzc = lzcOf r := rfl

/-- Settles O32: where there is a result no port is free. -/
theorem outputAssembly : Obligations.OutputAssembly := by
  unfold Obligations.OutputAssembly
  refine fun n z r => ⟨assembleOutputs_valid n true z r, assembleOutputs_err n z r, ?_⟩
  rintro rfl
  exact ⟨assembleOutputs_msb n r, assembleOutputs_lzc n r, lzcOf_toNat r⟩

/-! ## The transaction in `P[1]` -/

/-- Settles O25: `P[1]` takes the operand through the first group of stages, and the other registers advance as at any edge with
`rst = 0`. -/
theorem fmsbEntersThePipeline : Obligations.FmsbEntersThePipeline := by
  unfold Obligations.FmsbEntersThePipeline
  intro v s c hs hb hc
  have hL : 1 ≤ s.build.latency := List.length_pos_of_mem (List.mem_of_head? hc)
  obtain ⟨c', p, hc', hp, hvalid, hwork, hz⟩ := exec_enters hs hb hL (exec_fmsb v s)
  obtain rfl : c = c' := Option.some.inj (hc.symm.trans (List.head?_eq_getElem?.trans hc'))
  exact ⟨_, p, exec_fmsb v s, List.head?_eq_getElem?.trans hp, hvalid, hz, hwork, clockEdge_advancedTo hs hb _,
    outputs_shownOn hb _, clockEdge_sameSetting _ s⟩

/-! ## The form without registers -/

theorem clockEdge_regs_of_latency_zero {s : State} (hL : s.build.latency = 0) (smp : Sample) :
    (clockEdge smp s).regs = [] := by
  cases hb : s.booted with
  | true =>
    rw [clockEdge_regs_of_booted hb, ← List.length_eq_zero_iff, shiftFrom_length, ← Build.latency, hL, Nat.zero_min]
  | false => rw [clockEdge_regs_of_not_booted hb, hL, List.range'_zero, List.map_nil]

theorem resetEdge_regs_of_latency_zero {s : State} (hL : s.build.latency = 0) (smp : Sample) :
    (resetEdge smp s).regs = [] := by
  rw [resetEdge_regs, hL, List.range'_zero, List.map_nil]

/-- With LATENCY = 0 an FMSB has its result on the outputs of its own cycle (R94). -/
theorem outputs_fmsbSample_of_latency_zero {s : State} (hL : s.build.latency = 0) (v : Operand) :
    outputs s (fmsbSample v) = assembleOutputs s.draw true (zeroDetect v) (stages 1 8 (Work.start v)).r :=
  outputs_of_latency_zero hL _

theorem outputs_idleSample_valid_of_latency_zero {s : State} (hL : s.build.latency = 0) (v : Operand) :
    (outputs s (idleSample v)).valid = false := by
  rw [outputs_of_latency_zero hL]
  exact assembleOutputs_valid ..

/-- Settles O28: with no register the outputs are assembled from the sample of the cycle itself. -/
theorem combinationalForm : Obligations.CombinationalForm := by
  unfold Obligations.CombinationalForm
  refine fun s hL => ⟨fun v => ?_, fun v => ?_, fun b v => ?_⟩
  · refine ⟨_, exec_fmsb v s, clockEdge_regs_of_latency_zero hL _, clockEdge_sameSetting _ s, ?_⟩
    rw [clockEdge_out, outputs_fmsbSample_of_latency_zero hL]
    refine ⟨assembleOutputs_valid .., assembleOutputs_err .., fun hv => ?_⟩
    rw [eq_false_of_ne_true (mt (zeroDetect_eq_true_iff v).mp hv)]
    exact ⟨assembleOutputs_msb .., assembleOutputs_lzc ..⟩
  · exact ⟨_, exec_idle v s, clockEdge_regs_of_latency_zero hL _, clockEdge_sameSetting _ s,
      outputs_idleSample_valid_of_latency_zero hL v⟩
  · exact ⟨_, exec_reset b v s, resetEdge_regs_of_latency_zero hL _, rfl, rfl, outputs_valid_of_rst hL rfl⟩

/-! ## The places of the registers -/

/-- Assembled outputs carry the leading-zero count of the outcome they read as. -/
theorem assembleOutputs_leadingZeros_eq (n : Nat) (b z : Bool) (r : Result) :
    (assembleOutputs n b z r).leadingZeros = leadingZerosOf (assembleOutputs n b z r).outcome := by
  rw [assembleOutputs_leadingZeros, assembleOutputs_outcome, lzcOf_eq_sub]
  cases b with
  | false => rfl
  | true => cases z <;> rfl

/-- Where the outputs carry meaning the outcome fixes the leading-zero count (R68). -/
theorem outputs_leadingZeros_eq {s : State} (hs : s.wellFormed = true) (hm : s.Meaningful) (smp : Sample) :
    (outputs s smp).leadingZeros = leadingZerosOf (outputs s smp).outcome := by
  obtain hL | hL := Nat.eq_zero_or_pos s.build.latency
  · rw [outputs_of_latency_zero hL]
    exact assembleOutputs_leadingZeros_eq ..
  · obtain ⟨c, p, hc, hp⟩ := State.exists_last hs hL
    rw [outputs_of_latency_pos hL, registeredOutputs_eq (hm.booted hL) hc hp, assembleOutputs_leadingZeros_eq]

theorem countReadings_eq_map_readings {s : State} (hs : s.wellFormed = true) (hm : s.Meaningful) (is : List Instr) :
    countReadings is s = (readings is s).map leadingZerosOf := by
  induction is generalizing s with
  | nil => rfl
  | cons i is ih =>
    obtain ⟨t, ht⟩ := exec_completes i s
    obtain ⟨htwf, -⟩ := exec_keeps_wellFormed hs ht
    have htail := ih htwf (exec_keeps_meaningful hm ht)
    rw [countReadings, readings] at htail ⊢
    rw [outputTrace_cons ht, List.map_cons, List.map_cons, List.map_cons, htail, exec_out ht,
      outputs_leadingZeros_eq hs hm]

/-- From an empty pipeline the outcomes depend on the build by its LATENCY alone (R95). -/
theorem readings_eq_of_latency_eq {s s' : State} (hs : s.wellFormed = true) (hs' : s'.wellFormed = true)
    (hm : s.Meaningful) (hm' : s'.Meaningful) (he : s.Empty) (he' : s'.Empty)
    (hL : s.build.latency = s'.build.latency) (is : List Instr) : readings is s = readings is s' := by
  obtain ⟨hlen, hget⟩ := runDeliversResultsInOrder s is hs hm he
  obtain ⟨hlen', hget'⟩ := runDeliversResultsInOrder s' is hs' hm' he'
  refine List.ext_getElem?' fun n hn => ?_
  rw [hlen, hlen', max_self] at hn
  rw [hget n hn, hget' n hn, hL]

/-- Settles O45: the run of either build is the one that R42 gives for its LATENCY, and the outcomes fix the leading-zero
counts. -/
theorem placementDoesNotChangeResults : Obligations.PlacementDoesNotChangeResults := by
  unfold Obligations.PlacementDoesNotChangeResults
  intro s s' is hs hs' hm hm' he he' hL
  have hreadings := readings_eq_of_latency_eq hs hs' hm hm' he he' hL is
  refine ⟨hreadings, ?_⟩
  rw [countReadings_eq_map_readings hs hm, countReadings_eq_map_readings hs' hm', hreadings]

end Sys2Proof.Machine
end

section
/-! The exception InvalidInput (60_exceptions.md R96 to R103): it comes of the operand 0 alone, it stays in the transaction's own
slot, and nothing but a combinational loop stops a step. -/

namespace Sys2Proof.Machine

/-! ## The transaction's own slot -/

/-- Two transactions that enter differ in the first register alone: every later one takes over what stood before it. -/
theorem shiftFrom_tail_agrees {ps qs : List Reg} (h : RegsAgree ps qs) (n m k cut : Nat) (src src' : Reg) (cs : List Nat) :
    RegsAgree (shiftFrom n k cut src cs ps).tail (shiftFrom m k cut src' cs qs).tail := by
  match cs, ps, qs with
  | [], _, _ => exact .nil
  | _ :: _, [], [] => exact .nil
  | c :: cs, p :: ps, q :: qs =>
    obtain ⟨hpq, htail⟩ := RegsAgree.cons_iff.mp h
    exact shiftFrom_agrees hpq htail n m (k + 1) c cs
  | _ :: _, [], _ :: _ => cases h.1
  | _ :: _, _ :: _, [] => cases h.1

/-- The valid bits move on whatever data stand beside them. -/
theorem shiftFrom_map_valid {src src' : Reg} {ps qs : List Reg} (hsrc : src.valid = src'.valid) (h : RegsAgree ps qs)
    (n m k cut : Nat) (cs : List Nat) :
    (shiftFrom n k cut src cs ps).map Reg.valid = (shiftFrom m k cut src' cs qs).map Reg.valid := by
  induction cs generalizing k cut src src' ps qs with
  | nil => rfl
  | cons c cs ih =>
    match ps, qs with
    | [], [] => rfl
    | p :: ps, q :: qs =>
      obtain ⟨⟨hpq, -⟩, htail⟩ := RegsAgree.cons_iff.mp h
      rw [shiftFrom, shiftFrom, List.map_cons, List.map_cons, loaded_valid, loaded_valid, hsrc, ih hpq htail]
    | [], _ :: _ => cases h.1
    | _ :: _, [] => cases h.1

/-- At an edge with `rst = 0` two samples with the same `in_valid` make no difference outside `P[1]`, and none to a valid bit. -/
theorem clockEdge_regs_agree_but_first {s s' : State} (h : s.Agrees s') (hb : s.booted = true) {smp smp' : Sample}
    (hv : smp.inValid = smp'.inValid) :
    RegsAgree (clockEdge smp s).regs.tail (clockEdge smp' s').regs.tail ∧
    (clockEdge smp s).regs.map Reg.valid = (clockEdge smp' s').regs.map Reg.valid := by
  obtain ⟨hbuild, -, hbooted, -, hregs⟩ := h
  rw [clockEdge_regs_of_booted hb, clockEdge_regs_of_booted (hbooted.trans hb), hbuild]
  exact ⟨shiftFrom_tail_agrees (hregs hb) .., shiftFrom_map_valid hv (hregs hb) ..⟩

theorem State.Agrees.wellFormed {s s' : State} (h : s.Agrees s') (hs : s.wellFormed = true) : s'.wellFormed = true := by
  obtain ⟨hbuild, -, -, hlen, -⟩ := h
  rw [State.wellFormed_iff] at hs ⊢
  rwa [hbuild, ← hlen]

theorem exec_regs_length {i : Instr} {s t : State} (hs : s.wellFormed = true) (h : exec i s = .next t) :
    t.regs.length = s.build.latency := by
  obtain ⟨ht, hbuild⟩ := exec_keeps_wellFormed hs h
  exact hbuild ▸ (t.wellFormed_iff.mp ht).2

/-- With LATENCY >= 1 the outputs of a cycle do not depend on its own sample (R93). -/
theorem outputs_agrees_of_latency_pos {s s' : State} (hs : s.wellFormed = true) (h : s.Agrees s')
    (hL : 1 ≤ s.build.latency) (hb : s.booted = true) (smp smp' : Sample) : (outputs s smp).Agrees (outputs s' smp') := by
  have hbuild : s'.build = s.build := h.1
  rw [outputs_of_latency_pos hL, outputs_of_latency_pos (hbuild ▸ hL)]
  exact registeredOutputs_agrees hs hL hb h

/-- With no register the samples of a cycle leave nothing behind but its outputs (R94). -/
theorem clockEdge_agrees_of_latency_zero {s s' : State} (h : s.Agrees s') (hL : s.build.latency = 0) (smp smp' : Sample) :
    (clockEdge smp s).Agrees (clockEdge smp' s') := by
  obtain ⟨hbuild, hinput, hbooted, -, -⟩ := h
  have hagree : RegsAgree (clockEdge smp s).regs (clockEdge smp' s').regs := by
    rw [clockEdge_regs_of_latency_zero hL, clockEdge_regs_of_latency_zero (hbuild ▸ hL)]
    exact .nil
  exact ⟨hbuild, hinput, hbooted, hagree.1, fun _ => hagree⟩

theorem outputs_fmsbSample_valid_of_latency_zero {s : State} (hL : s.build.latency = 0) (v : Operand) :
    (outputs s (fmsbSample v)).valid = true := by
  rw [outputs_fmsbSample_of_latency_zero hL, assembleOutputs_valid]

/-- Settles O31: at its own edge the operand of an FMSB reaches the data of `P[1]` only or, with LATENCY = 0, the outputs only,
and every FMSB, that of 0 included, enters with its valid bit at 1. -/
theorem zeroOperandChangesOnlyItsOwnSlot : Obligations.ZeroOperandChangesOnlyItsOwnSlot := by
  unfold Obligations.ZeroOperandChangesOnlyItsOwnSlot
  intro v s s' hs h
  have ⟨hbuild, hinput, hbooted, _, _⟩ := h
  refine ⟨_, _, exec_fmsb 0#256 s, exec_fmsb v s', hbuild, hinput, hbooted, ?_,
    fun hb => clockEdge_regs_agree_but_first h hb rfl, fun hb hL => outputs_agrees_of_latency_pos hs h hL hb _ _, fun hL => ?_⟩
  · rw [exec_regs_length hs (exec_fmsb 0#256 s), exec_regs_length (h.wellFormed hs) (exec_fmsb v s'), hbuild]
  · exact ⟨clockEdge_agrees_of_latency_zero h hL _ _, outputs_fmsbSample_valid_of_latency_zero hL _,
      outputs_fmsbSample_valid_of_latency_zero (hbuild ▸ hL) v⟩

/-! ## What stops a step -/

/-- Only a listed line has wires. -/
theorem State.hostLine_feedback_ne_nil_iff (s : State) :
    s.hostLine.feedback ≠ [] ↔ ∃ d ds, s.input = d :: ds ∧ d.feedback ≠ [] := by
  cases h : s.input with
  | nil => simp [State.hostLine_of_input_eq_nil h]
  | cons d ds => simp [State.hostLine_of_input_eq_cons h]

theorem step_of_loop {s : State} (hL : s.build.latency = 0) (hd : s.hostLine.feedback ≠ []) :
    step s = .refused .combinationalLoop := by
  have hword : presentedWord s = .error .combinationalLoop := by simp [presentedWord, hL, hd]
  rw [step, hword]

/-- Once a word stands on the ports the step completes (R117). -/
theorem step_completes_of_presentedWord {s : State} {w : InWord} (h : presentedWord s = .ok w) : ∃ t, step s = .next t := by
  rw [step_of_presentedWord h]
  exact exec_completes _ _

/-- Registers between the inputs and the outputs, or no wires, and there is no loop. -/
theorem step_completes_of_no_loop {s : State} (h : ¬ (s.build.latency = 0 ∧ s.hostLine.feedback ≠ [])) :
    ∃ t, step s = .next t := by
  obtain hL | hL := Nat.eq_zero_or_pos s.build.latency
  · have hd : s.hostLine.feedback = [] := by_contra fun hd => h ⟨hL, hd⟩
    exact step_completes_of_presentedWord (presentedWord_of_no_wires hd)
  · exact step_completes_of_presentedWord (presentedWord_of_latency_pos hL)

theorem step_refused_iff (s : State) :
    step s = .refused .combinationalLoop ↔ s.build.latency = 0 ∧ s.hostLine.feedback ≠ [] := by
  refine ⟨fun hstep => by_contra fun h => ?_, fun ⟨hL, hd⟩ => step_of_loop hL hd⟩
  obtain ⟨t, ht⟩ := step_completes_of_no_loop h
  rw [ht] at hstep
  cases hstep

/-- Settles O36: every operation completes, so a step stops only where the wires leave no word on the ports, and wires stand only
on a listed line. -/
theorem onlyACombinationalLoopStops : Obligations.OnlyACombinationalLoopStops := by
  unfold Obligations.OnlyACombinationalLoopStops
  intro s
  refine ⟨?_, (step_cases s).imp_right fun ⟨_, t, ht, _⟩ => ⟨t, ht⟩⟩
  rw [step_refused_iff, State.hostLine_feedback_ne_nil_iff]

/-! ## The cause code -/

/-- Settles O15: the outcome of 0 is the error, and that of any other operand is a number. -/
theorem invalidInputExactlyOnZero : Obligations.InvalidInputExactlyOnZero := by
  unfold Obligations.InvalidInputExactlyOnZero
  intro v
  by_cases hv : v = 0#256
  · subst hv
    rw [findMsb_zero, if_pos rfl]
    exact ⟨iff_of_true rfl rfl, rfl⟩
  · rw [findMsb_of_ne_zero hv, if_neg hv]
    exact ⟨iff_of_false nofun hv, rfl⟩

end Sys2Proof.Machine
end

section
/-! Hazards (70_reset_and_hazards.md R113 to R116, R121): what the outputs show LATENCY cycles after an operation and for LATENCY
cycles after a reset edge, and the bit that a feedback wire carries. -/

namespace Sys2Proof.Machine

/-! ## LATENCY cycles after an operation -/

/-- Settles O42: the transaction moves one register on at each edge, so LATENCY operations later the outputs show it, or the
bubble that a RESET left in its slot. -/
theorem resultComesExactlyLatencyCyclesLater : Obligations.ResultComesExactlyLatencyCyclesLater := by
  unfold Obligations.ResultComesExactlyLatencyCyclesLater
  intro s i is hs hm hlen
  obtain ⟨t, ht, -⟩ := runAll_completes hs hm (i :: is)
  exact ⟨t, ht, runAll_delivers_resultOf hs hm hlen ht⟩

/-! ## LATENCY cycles after a reset edge -/

/-- There are LATENCY registers with a reset edge behind them, and no register from place `k` on, which is `P[k + 1]`, holds a
transaction. The cuts may be any: R114 asks nothing of the build. -/
structure State.FlushedFrom (s : State) (k : Nat) : Prop where
  regs_length : s.regs.length = s.build.latency
  booted : s.booted = true
  invalid : ∀ (j : Nat) (p : Reg), k ≤ j → s.regs[j]? = some p → p.valid = false

theorem resetEdge_regs_length (smp : Sample) (s : State) : (resetEdge smp s).regs.length = s.build.latency := by
  rw [resetEdge_regs, List.length_map, List.length_range']

theorem resetEdge_flushedFrom (smp : Sample) (s : State) (k : Nat) : (resetEdge smp s).FlushedFrom k where
  regs_length := resetEdge_regs_length smp s
  booted := rfl
  invalid _ p _ hp := resetEdge_empty smp s p (List.mem_of_getElem? hp)

/-- An edge with `rst = 0` lets a transaction into one more register at most (R93). -/
theorem clockEdge_flushedFrom_succ {s : State} {k : Nat} (h : s.FlushedFrom k) (smp : Sample) :
    (clockEdge smp s).FlushedFrom (k + 1) := by
  have hlen : (clockEdge smp s).regs.length = s.build.latency := by
    rw [clockEdge_regs_of_booted h.booted, shiftFrom_length, h.regs_length, Build.latency, Nat.min_self]
  refine ⟨hlen, h.booted, fun j q hj hq => ?_⟩
  obtain ⟨m, rfl⟩ := Nat.exists_eq_add_of_le' (Nat.one_le_of_lt hj)
  have hm : m + 1 < s.build.latency := hlen ▸ (List.getElem?_eq_some_iff.mp hq).1
  have hp : s.regs[m]? = some _ := List.getElem?_eq_getElem (h.regs_length.symm ▸ Nat.lt_of_succ_lt hm)
  rw [clockEdge_regs_of_booted h.booted, shiftFrom_getElem?_succ (List.getElem?_eq_getElem (Nat.lt_of_succ_lt hm))
    (List.getElem?_eq_getElem hm) hp h.regs_length] at hq
  cases hq
  rw [loaded_valid]
  exact h.invalid m _ (Nat.le_of_succ_le_succ hj) hp

theorem exec_flushedFrom_succ {i : Instr} {s t : State} {k : Nat} (hs : s.FlushedFrom k) (h : exec i s = .next t) :
    t.FlushedFrom (k + 1) := by
  obtain ⟨smp, hclock | hreset⟩ := exec_is_edge i
  · rw [hclock] at h
    cases h
    exact clockEdge_flushedFrom_succ hs smp
  · rw [hreset] at h
    cases h
    exact resetEdge_flushedFrom smp s (k + 1)

/-- The outputs show `P[L]`, so they show no result while the flushed part reaches to it. -/
theorem outputs_valid_of_flushedFrom {s : State} {k : Nat} (h : s.FlushedFrom k) (hk : k < s.build.latency) (smp : Sample) :
    (outputs s smp).valid = false := by
  have hc : s.build.cuts ≠ [] := List.ne_nil_of_length_pos (Nat.zero_lt_of_lt hk)
  have hlast : s.regs[s.build.latency - 1]? = some _ := List.getElem?_eq_getElem (by rw [h.regs_length]; omega)
  rw [outputs_of_latency_pos (Nat.one_le_of_lt hk), registeredOutputs_eq h.booted (List.getLast?_eq_some_getLast hc)
    (by rw [List.getLast?_eq_getElem?, h.regs_length, hlast]), assembleOutputs_valid]
  exact h.invalid _ _ (Nat.le_sub_one_of_lt hk) hlast

/-- Operations let transactions in one register at a time, so none of them shows a result before the flushed part is used up. -/
theorem runAll_valid_of_flushedFrom {is : List Instr} {s : State} {k : Nat} (hs : s.FlushedFrom k) (hne : 1 ≤ is.length)
    (hlen : k + is.length ≤ s.build.latency) : ∃ t, runAll is s = some t ∧ t.out.valid = false := by
  induction is generalizing s k with
  | nil => cases hne
  | cons i js ih =>
    obtain ⟨u, hu⟩ := exec_completes i s
    rw [List.length_cons] at hlen
    rw [runAll_cons hu]
    cases js with
    | nil =>
      refine ⟨u, rfl, ?_⟩
      rw [exec_out hu]
      exact outputs_valid_of_flushedFrom hs hlen _
    | cons j js =>
      exact ih (exec_flushedFrom_succ hs hu) (Nat.le_add_left 1 js.length) (by rw [exec_keeps_build hu]; omega)

/-- Settles O44: a reset edge flushes every register, and each later edge fills one at most, so `P[L]` stays invalid for LATENCY
cycles; the transaction of the next edge is then run from a state with a reset edge behind it. -/
theorem noResultForLatencyCyclesAfterReset : Obligations.NoResultForLatencyCyclesAfterReset := by
  unfold Obligations.NoResultForLatencyCyclesAfterReset
  intro s b v
  refine ⟨fun is hne hlen => ?_, fun u is hbuild _ hlen hkept => ?_⟩
  · rw [runAll_cons (exec_reset b v s)]
    exact runAll_valid_of_flushedFrom (resetEdge_flushedFrom _ s 0) hne (by rwa [Nat.zero_add, resetEdge_build])
  · have hwf : (resetEdge (resetSample b v) s).wellFormed = true :=
      (State.wellFormed_iff _).mpr ⟨hbuild, resetEdge_regs_length _ s⟩
    obtain ⟨t, ht, hout, -⟩ := resultComesExactlyLatencyCyclesLater _ (.fmsb u) is hwf (.inl rfl) hlen
    rw [resultOf, hkept] at hout
    exact ⟨t, (runAll_cons (exec_reset b v s) _).trans ht, hout⟩

/-! ## Feedback wires -/

theorem setBit_getLsbD (w : InWord) (b : Bool) {i j : Nat} (hj : j < 258) :
    (setBit w i b).getLsbD j = if j = i then b else w.getLsbD j := by
  rw [setBit, BitVec.getLsbD_or, BitVec.getLsbD_and, BitVec.getLsbD_not, BitVec.getLsbD_shiftLeft, BitVec.getLsbD_shiftLeft,
    BitVec.getLsbD_setWidth, BitVec.getLsbD_ofBool, BitVec.getLsbD_one]
  obtain h | rfl | h := Nat.lt_trichotomy j i
  · simp [hj, h, h.ne]
  · simp [hj]
  · have hsub : j - i ≠ 0 := Nat.sub_ne_zero_of_lt h
    simp [hj, h.ne', hsub]

/-- The wires of a line work one after another, so the last one sets its bit on what the others drive. -/
theorem HostLine.drivenWord_concat (w : InWord) (xs : List FeedbackWire) (x : FeedbackWire) (o : OutWord) :
    HostLine.drivenWord ⟨w, xs ++ [x]⟩ o = setBit (HostLine.drivenWord ⟨w, xs⟩ o) x.toIn (o.getLsbD x.fromOut) :=
  List.foldl_concat ..

/-- Settles O37: the last wire sets one bit of the word that the line without it drives. -/
theorem feedbackWireCarriesOneBit : Obligations.FeedbackWireCarriesOneBit := by
  unfold Obligations.FeedbackWireCarriesOneBit
  intro w x xs o i hi
  refine ⟨?_, rfl⟩
  rw [HostLine.drivenWord_concat, setBit_getLsbD _ _ hi]

end Sys2Proof.Machine
end
